-- ==== Sys2Proof/Config.lean ====
section
/-!
DEFINITION. The six parameters of `00_scope.md` R6. Three are the arguments of the model, the structure `Params`; a state
carries its own (`State.params`, entry 26), so that what holds for every state holds for every value of them.
`STATE_W` and `BUF_RESIDENT` are numbers the spec decides and derives; `UNKNOWN_CODE` is a free value.
-/

namespace Sys2Proof

/-- What an implementation of the block fixes at construction and never changes (R19, R144; assumption log entries 3, 9
and 26). -/
structure Params where
  /-- `IDLE_MS`: duration of the single-shot idle-reset timer, in milliseconds (R6). -/
  idleMs : Nat
  /-- `TICK_MS`: period of the repeating state-transition timer, in milliseconds (R6). -/
  tickMs : Nat
  /-- `MAX_CHUNK`: largest number of bytes of one `RX` event, OPEN (R6, D7); `none` is unbounded. -/
  maxChunk : Option Nat
deriving DecidableEq, Repr

/-- The values of R6: the source's 3000 ms and 1000 ms, and D7's default, unbounded (entries 3 and 9). -/
def Params.source : Params where
  idleMs := 3000
  tickMs := 1000
  maxChunk := none

/-- `STATE_W`, the width of the `STATE` register in bits, which decision D2 fixes (R6; entry 27). -/
abbrev Config.stateW : Nat := 8

/-- `BUF_RESIDENT`, the most bytes of buffer that survive between events: a bound R13 derives (R6). -/
abbrev Config.bufResident : Nat := 7

/-- The free value behind `UNKNOWN_CODE` (R6, D1: OPEN, any value in 9..255): the code is 9 plus this offset. It has no
body, so nothing can be proved of it but its bound. Assumption log entry 2. -/
opaque Config.unknownOffset : Fin 247

end Sys2Proof
end

