-- ==== Sys2Proof/Word.lean ====
section
/-!
DEFINITION. The byte, the state code and the frame.
Spec: `00_scope.md` R8 (byte numbering), `30_encoding.md` R50 (one frame length), `10_state.md` R15 (width of `STATE`).
-/

namespace Sys2Proof

/-- A byte: bit 7 most significant, bit 0 least (R8). -/
abbrev Byte := BitVec 8

/-- The value of the `STATE` register, `STATE_W` = 8 bits (R6, R15, decision D2). All 256 values are values of the
type: the bound `STATE <= 5` is an invariant, never part of the type (R16). -/
abbrev StateCode := BitVec Config.stateW

/-- Eight bytes `W[0]` to `W[7]`, `W[0]` first on the wire (R8, R50). A *frame* the Codec builds and a *window* the
framing loop cuts are both of this type; a window satisfies nothing more (C5). "Exactly 8 bytes" is the type, so
a shorter or longer argument of `matchFrame` cannot be written (R74, R143). -/
structure Frame where
  b0 : Byte
  b1 : Byte
  b2 : Byte
  b3 : Byte
  b4 : Byte
  b5 : Byte
  b6 : Byte
  b7 : Byte
deriving DecidableEq, Repr

end Sys2Proof
end

