-- ==== Sys2Proof/Machine/Codec.lean ====
section
/-!
DEFINITION. The Command Codec: markers, templates, the three builders and the matcher (`40_codec.md` R70 to R77,
`30_encoding.md` R50 to R59). It is stateless and depends on nothing (R1, R75).
-/

namespace Sys2Proof.Machine

/-- `SOF`, the start marker (R5, R50). -/
def sofByte : Byte := 0xA9#8

/-- `EOF`, the end marker (R5, R50). It is tested only as byte 7 of a whole-frame comparison (R59, C8). -/
def eofByte : Byte := 0x9A#8

/-- `FRAME_LEN`: every window and every frame is 8 bytes (R5, R50). -/
def frameLen : Nat := 8

/-- `buildStatusQuery()`, the fixed StatusQuery template (R52, R70). -/
def buildStatusQuery : Frame :=
  ⟨0xA9#8, 0x01#8, 0x02#8, 0x01#8, 0x00#8, 0x00#8, 0x03#8, 0x9A#8⟩

/-- `buildPowerCommand(on)`: the PowerOn or the PowerOff template (R53, R54, R71). -/
def buildPowerCommand (on : Bool) : Frame :=
  if on then ⟨0xA9#8, 0x17#8, 0x2E#8, 0x00#8, 0x00#8, 0x00#8, 0x3F#8, 0x9A#8⟩
  else ⟨0xA9#8, 0x17#8, 0x2F#8, 0x00#8, 0x00#8, 0x00#8, 0x3F#8, 0x9A#8⟩

/-- `buildStatusResponse(s)`: byte 5 is the state code as it stands, byte 6 is `0x03 | s`, no range check
(R55, R56, R72, C1). -/
def buildStatusResponse (s : StateCode) : Frame :=
  ⟨0xA9#8, 0x01#8, 0x02#8, 0x02#8, 0x00#8, s, 0x03#8 ||| s, 0x9A#8⟩

/-- The four verdicts of `matchFrame` (R73). -/
inductive Verdict where
  | statusQuery
  | powerOn
  | powerOff
  | unrecognized
deriving DecidableEq, Repr

/-- `matchFrame(W)`: exact comparison of all eight bytes with the three templates in the source's precedence order
(R57, R73). -/
def matchFrame (W : Frame) : Verdict :=
  if W = buildStatusQuery then .statusQuery
  else if W = buildPowerCommand true then .powerOn
  else if W = buildPowerCommand false then .powerOff
  else .unrecognized

end Sys2Proof.Machine
end

