-- ==== Sys2Proof/Syntax.lean ====
section
/-!
DEFINITION. The instruction set: one constructor per row of `spec/opcode_table.json`, in the table's order
(`30_encoding.md` section 6), and the table's formats.
-/

namespace Sys2Proof

/-- The 20 rows of the opcode table. An operand is a bit field of the row or, for a row without bits, the argument
the rule names. -/
inductive Instr where
  /-- FRAME_RX: the window `A9 01 02 01 00 00 03 9A` (R52, R102). -/
  | statusQuery
  /-- FRAME_RX: the window `A9 17 2E 00 00 00 3F 9A` (R53, R103). -/
  | powerOn
  /-- FRAME_RX: the window `A9 17 2F 00 00 00 3F 9A` (R54, R104). -/
  | powerOff
  /-- FRAME_RX: every other window (R58, R105). -/
  | unrecognized (window : Frame)
  /-- FRAME_TX: `A9 01 02 02 00 ss cc 9A` (R55, R56, R72). -/
  | statusResponse (ss cc : Byte)
  /-- BYTE_SCAN: the start marker 0xA9 (R60, R82). -/
  | sof
  /-- BYTE_SCAN: any other byte before the first 0xA9 (R60, R83). -/
  | garbageByte (byte : Byte)
  /-- TICK: `STATE` = 0x00 (R111). -/
  | tickStandby
  /-- TICK: `STATE` = 0x01 (R112). -/
  | tickStartup
  /-- TICK: `STATE` = 0x02 (R113). -/
  | tickStartuplamp
  /-- TICK: `STATE` = 0x03 (R114). -/
  | tickPoweron
  /-- TICK: `STATE` = 0x04 (R115). -/
  | tickCooling1
  /-- TICK: every other value of `STATE` (R116). -/
  | tickDefault (state : StateCode)
  /-- The bytes-received event (R80). -/
  | rx (chunk : List Byte)
  /-- The idle-reset timer fired (R120). -/
  | idleTimeout
  /-- The state-transition timer fired (R110). -/
  | tick
  /-- Construction of the controller (R160). -/
  | reset
  /-- The Codec operation `buildStatusQuery` (R70). -/
  | buildStatusQuery
  /-- The Codec operation `buildPowerCommand` (R71). -/
  | buildPowerCommand (on : Bool)
  /-- The Codec operation `matchFrame` (R73). -/
  | matchFrame (window : Frame)
deriving DecidableEq, Repr

/-- The 11 formats of the opcode table. Rows compete only within one format (`30_encoding.md` section 6). -/
inductive Format where
  | frameRx
  | frameTx
  | byteScan
  | tick
  | eventRx
  | eventIdleTimeout
  | eventTick
  | eventReset
  | codecOpBuildSq
  | codecOpBuildPwr
  | codecOpMatch
deriving DecidableEq, Repr

end Sys2Proof
end

