-- ==== Sys2Proof/Machine/State.lean ====
section
/-!
DEFINITION. The state of the block, its stopping reasons and its reset state (`10_state.md`, `60_exceptions.md` R149,
`70_reset_and_hazards.md` R160). `INVENTORY.md` lists every field with the rule that names it.
-/

namespace Sys2Proof.Machine

/-- The two timers of the timer service the block owns (R132, R144). -/
inductive Timer where
  /-- The idle-reset timer: single-shot, `IDLE_MS`. -/
  | idle
  /-- The state-transition timer: repeating, `TICK_MS`. -/
  | tick
deriving DecidableEq, Repr

/-- A transaction from the block to the timer service (R134): the model's own observation (entry 10). -/
inductive TimerCall where
  | start (t : Timer)
  | stop (t : Timer)
deriving DecidableEq, Repr

/-- A log point that was passed (R150): the optional ghost trace (entry 11). -/
inductive LogEntry where
  /-- `Trace(GARBAGE, bytes)`: discarded bytes (R83). -/
  | garbage (bytes : List Byte)
  /-- `Trace(UNRECOGNIZED, W)`: a window equal to no template (R105). -/
  | unrecognized (window : Frame)
deriving DecidableEq, Repr

/-- What a pure Codec operation last returned (R70 to R73): the model's own return port (entry 13). -/
inductive CodecResult where
  | frame (F : Frame)
  | verdict (v : Verdict)
deriving DecidableEq, Repr

/-- What the environment can offer the block: the four events of R130 and R134, and the calls of the Codec's four pure
operations (R70 to R73; entry 13). -/
inductive Input where
  | rx (chunk : List Byte)
  | idleTimeout
  | tick
  | reset
  | buildStatusQuery
  | buildPowerCommand (on : Bool)
  | buildStatusResponse (s : StateCode)
  | matchFrame (window : Frame)
deriving DecidableEq, Repr

/-- The machine. `buf`, `devState`, `idleArmed` and `tickArmed` are the four items of architectural state (R7); the two
counters and the time belong to the timed refinement (R149), and no rule of the untimed model reads them. -/
structure State where
  /-- The parameters the block was built with; every rule reads them here and none writes them (R6, R144; entry 26). -/
  params : Params
  /-- `BUF`, oldest byte first (R10). -/
  buf : List Byte
  /-- `STATE` (R15). -/
  devState : StateCode
  /-- `IDLE_ARMED` (R17). -/
  idleArmed : Bool
  /-- `TICK_ARMED` (R18). -/
  tickArmed : Bool
  /-- `IDLE_REM`, in milliseconds; 0 while the idle timer is not armed (R149; entry 7). -/
  idleRem : Nat
  /-- `TICK_REM`, in milliseconds; 0 while the state timer is not armed (R149; entry 7). -/
  tickRem : Nat
  /-- The global time of the timed refinement, in milliseconds (R149; entry 8). -/
  now : Nat
  /-- `TX`, every frame written since reset, oldest first (R101, R19). -/
  tx : List Frame
  /-- The timer transactions issued since reset, oldest first (R134; entry 10). -/
  timerCalls : List TimerCall
  /-- The log points passed since reset, oldest first (R150; entry 11). -/
  log : List LogEntry
  /-- The value the last Codec call returned (entry 13). -/
  codecOut : Option CodecResult
  /-- The events offered and not yet taken, in arrival order (R38; entry 12). -/
  inbox : List Input
deriving DecidableEq, Repr

/-- The faults of the block: none. "No operation in this component can fail at the protocol level", and every event in
every state has exactly one successor state (R140). Leaving the type empty is safe: no step can answer a fault. -/
inductive Fault where
deriving DecidableEq, Repr

/-- The refusals. The interface asks for the one constructor; the block has no refusal of its own (R140). -/
inductive Refusal where
  /-- Raised only by an arm of `exec` whose instruction has no meaning yet; no arm does. Safe: a refused step proves
  nothing about the block. -/
  | notModelled (mnemonic : String)
deriving DecidableEq, Repr

/-- The state right after reset (R22, R160): `BUF` empty, `STATE` = 0x00 (Standby), both flags 0, `TX` empty.
The parameters are those of R6 (entry 26); the fields of the timed refinement and the model's own fields start at the values of entries 7, 8 and 10 to 13. -/
def State.reset : State where
  params := Params.source
  buf := []
  devState := 0x00#8
  idleArmed := false
  tickArmed := false
  idleRem := 0
  tickRem := 0
  now := 0
  tx := []
  timerCalls := []
  log := []
  codecOut := none
  inbox := []

end Sys2Proof.Machine
end

