-- ==== Sys2Proof/Machine/Flags.lean ====
section
/-!
DEFINITION. The two timer-armed flags and every operation that writes them (`60_exceptions.md` R144 to R149,
`10_state.md` R17, R18). An operation also sets the counter of the timed refinement, which no untimed rule reads.
-/

namespace Sys2Proof.Machine

/-- `T_ARMED` (R17, R18). -/
def State.armed (s : State) (t : Timer) : Bool :=
  match t with
  | .idle => s.idleArmed
  | .tick => s.tickArmed

/-- `TimerStart(T)`: `T_ARMED <- 1`, and the time already run is forgotten: the counter takes the full duration
(R145, R149). -/
def State.timerStart (s : State) (t : Timer) : State :=
  match t with
  | .idle => { s with idleArmed := true, idleRem := s.params.idleMs,
                      timerCalls := s.timerCalls ++ [.start .idle] }
  | .tick => { s with tickArmed := true, tickRem := s.params.tickMs,
                      timerCalls := s.timerCalls ++ [.start .tick] }

/-- `TimerStop(T)`: `T_ARMED <- 0`; a stopped timer does not remember how long it had run (R146; entry 7). -/
def State.timerStop (s : State) (t : Timer) : State :=
  match t with
  | .idle => { s with idleArmed := false, idleRem := 0,
                      timerCalls := s.timerCalls ++ [.stop .idle] }
  | .tick => { s with tickArmed := false, tickRem := 0,
                      timerCalls := s.timerCalls ++ [.stop .tick] }

/-- The single-shot idle timer has fired: it is no longer armed. The service is not called (R120, R132). -/
def State.idleExpired (s : State) : State := { s with idleArmed := false, idleRem := 0 }

/-- The repeating state timer goes on after firing: the period repeats from the firing (R111, R149). -/
def State.tickContinue (s : State) : State := { s with tickRem := s.params.tickMs }

/-- The idle-timer control that ends every `RX` event: stop if `BUF` is empty, else start or restart (R87). -/
def State.idleControl (s : State) : State :=
  if s.buf.isEmpty then s.timerStop .idle else s.timerStart .idle

end Sys2Proof.Machine
end

