-- ==== Sys2Proof/Machine/Operands.lean ====
section
/-!
DEFINITION. The operand forms: the front of `BUF` (`41_framing.md` R85, R97) and the register view of `BUF`
between events (`10_state.md` R11), and the bound on the chunk of `RX` (`00_scope.md` R6). The other operand, the state code, is the register `STATE` itself (R56).
-/

namespace Sys2Proof.Machine

/-- `s[0..7]`: the window at the front of a byte string, if it holds eight bytes (R85). -/
def frontWindow : List Byte → Option Frame
  | b0 :: b1 :: b2 :: b3 :: b4 :: b5 :: b6 :: b7 :: _ => some ⟨b0, b1, b2, b3, b4, b5, b6, b7⟩
  | _ => none

/-- `FindSOF(s)`: the least index whose byte is 0xA9, or none (R82). -/
def findSof : List Byte → Option Nat
  | [] => none
  | b :: bs => if b = sofByte then some 0 else (findSof bs).map (· + 1)

/-- `BUF_LEN`, the 3-bit length register of the register view (R11); it is the length between events (R13). -/
def State.bufLen (s : State) : BitVec 3 := BitVec.ofNat 3 s.buf.length

/-- `BUF[k]` of the register view, k below `BUF_RESIDENT`, that is in 0..6 (R11): bytes at index `BUF_LEN` and above are not readable. -/
def State.bufReg (s : State) (k : Fin Config.bufResident) : Option Byte := s.buf[k.val]?

/-- The chunk keeps the bound `MAX_CHUNK` (R6, D7): `none` admits every chunk. -/
def chunkAdmitted (bound : Option Nat) (chunk : List Byte) : Bool :=
  match bound with
  | none => true
  | some n => decide (chunk.length ≤ n)

end Sys2Proof.Machine
end

