-- ==== Sys2Proof/Machine/Ops.lean ====
section
/-!
DEFINITION. The primitives of `00_scope.md` R9 over the buffer, the device state, the byte sink and the log, and taking
an event (`60_exceptions.md` R135, R136). The block takes no exception: an event is entered with nothing saved and
left with nothing restored.
-/

namespace Sys2Proof.Machine

/-- `Append(chunk)`: the chunk goes to the back of `BUF` in the order received (R81). -/
def State.append (s : State) (chunk : List Byte) : State := { s with buf := s.buf ++ chunk }

/-- `DropFront(n)`: `BUF <- BUF[n..]` (R83, R86). -/
def State.dropFront (s : State) (n : Nat) : State := { s with buf := s.buf.drop n }

/-- `BUF <- empty` (R83, R120). -/
def State.clearBuf (s : State) : State := { s with buf := [] }

/-- `STATE <- c`; only the rows of TICK use it (R15). -/
def State.setDevState (s : State) (c : StateCode) : State := { s with devState := c }

/-- `Trace(...)`: a log point (R150). -/
def State.trace (s : State) (e : LogEntry) : State := { s with log := s.log ++ [e] }

/-- `TxWrite(F)`: one write of the 8-byte frame to the byte sink, which always takes it (R101, D8). -/
def State.txWrite (s : State) (F : Frame) : State := { s with tx := s.tx ++ [F] }

/-- A pure Codec operation returns: nothing but the return port changes (R75; entry 13). -/
def State.codecReturn (s : State) (r : CodecResult) : State := { s with codecOut := some r }

/-- The discard of a garbage prefix of `n` bytes, with its log point; discarding nothing is no log point (R80, R83). -/
def State.discardFront (s : State) (n : Nat) : State :=
  if (s.buf.take n).isEmpty then s
  else (s.trace (.garbage (s.buf.take n))).dropFront n

/-- The marker search and the discard, step 2 of `RX`: everything before the first 0xA9 goes, or everything (R82, R83). -/
def State.markerSearch (s : State) : State :=
  match findSof s.buf with
  | none => s.discardFront s.buf.length
  | some i => s.discardFront i

/-- Taking the event at the head of the list: the rest stays for later steps. Nothing is saved (R135). -/
def State.takeEvent (s : State) (rest : List Input) : State := { s with inbox := rest }

end Sys2Proof.Machine
end

