-- ==== Sys2Proof/Machine/CodecOps.lean ====
section
/-!
DEFINITION. The Codec's four operations as instructions (`40_codec.md` R70 to R75): pure functions whose value is
returned to the caller through the model's return port and which touch nothing else. `STATUS_RESPONSE` is the row of
`buildStatusResponse` (`30_encoding.md` section 6).
-/

namespace Sys2Proof.Machine

/-- Meaning of `BUILD_STATUS_QUERY` (R70). -/
def execBuildStatusQuery (s : State) : Host.Outcome State Fault Refusal :=
  .next (s.codecReturn (.frame buildStatusQuery))

/-- Meaning of `BUILD_POWER_COMMAND` (R71). -/
def execBuildPowerCommand (on : Bool) (s : State) : Host.Outcome State Fault Refusal :=
  .next (s.codecReturn (.frame (buildPowerCommand on)))

/-- Meaning of `STATUS_RESPONSE`: `buildStatusResponse(ss)` (R72). The row's one operand is the state code; byte 6 of
the result is computed from it (R56), whatever the field `cc` of the word holds (entry 14). -/
def execStatusResponse (ss _cc : Byte) (s : State) : Host.Outcome State Fault Refusal :=
  .next (s.codecReturn (.frame (buildStatusResponse ss)))

/-- Meaning of `MATCH_FRAME` (R73). -/
def execMatchFrame (W : Frame) (s : State) : Host.Outcome State Fault Refusal :=
  .next (s.codecReturn (.verdict (matchFrame W)))

end Sys2Proof.Machine
end

