-- ==== Sys2Proof/Machine/Commands.lean ====
section
/-!
DEFINITION. The four commands and the dispatcher (`42_dispatch.md` R100 to R107), format FRAME_RX of the table. A
command acts on the state while its window is the one being dispatched; the framing loop removes the window (R86).
-/

namespace Sys2Proof.Machine

/-- `STATUS_QUERY`: one response with the state at the moment of dispatch, nothing else (R102). -/
def statusQuery (s : State) : State := s.txWrite (buildStatusResponse s.devState)

/-- `POWER_ON`: start or restart the state-transition timer; no reply, no state change (R103). -/
def powerOn (s : State) : State := s.timerStart .tick

/-- `POWER_OFF`: exactly the action of `POWER_ON` (R104, I1). -/
def powerOff (s : State) : State := s.timerStart .tick

/-- `UNRECOGNIZED`: a log point and architecturally nothing (R105). -/
def unrecognizedWindow (W : Frame) (s : State) : State := s.trace (.unrecognized W)

/-- `Dispatch(W)`: classify the window and perform the one action of its class (R100). -/
def dispatch (W : Frame) (s : State) : State :=
  match matchFrame W with
  | .statusQuery => statusQuery s
  | .powerOn => powerOn s
  | .powerOff => powerOff s
  | .unrecognized => unrecognizedWindow W s

/-- Meaning of `STATUS_QUERY` (R102). -/
def execStatusQuery (s : State) : Host.Outcome State Fault Refusal := .next (statusQuery s)

/-- Meaning of `POWER_ON` (R103). -/
def execPowerOn (s : State) : Host.Outcome State Fault Refusal := .next (powerOn s)

/-- Meaning of `POWER_OFF` (R104). -/
def execPowerOff (s : State) : Host.Outcome State Fault Refusal := .next (powerOff s)

/-- Meaning of `UNRECOGNIZED` (R105). -/
def execUnrecognized (W : Frame) (s : State) : Host.Outcome State Fault Refusal :=
  .next (unrecognizedWindow W s)

end Sys2Proof.Machine
end

