-- ==== Sys2Proof/Machine/Framing.lean ====
section
/-!
DEFINITION. The receive handler (`41_framing.md` R80 to R97): `RX` and the two rows of format BYTE_SCAN.
-/

namespace Sys2Proof.Machine

/-- Step 3, the framing loop, with as many rounds left as `n`: while `BUF` holds eight bytes, take the window at its
front, dispatch it, remove it. There is no search for a marker in the loop (R84 to R86, R91). Each round removes
eight bytes, so `len(BUF)` rounds are more than the loop ever runs (R88). -/
def framingLoop : Nat → State → State
  | 0, s => s
  | n + 1, s =>
    match frontWindow s.buf with
    | none => s
    | some W => framingLoop n ((dispatch W s).dropFront frameLen)

/-- `RX(chunk)`: append, search once, cut and dispatch windows, control the idle timer (R80). -/
def rx (chunk : List Byte) (s : State) : State :=
  let s2 := (s.append chunk).markerSearch
  (framingLoop s2.buf.length s2).idleControl

/-- `SOF`: the marker search stops at this byte and keeps it; nothing is written (R82, R83; entry 17). -/
def startMarker (s : State) : State := s

/-- `GARBAGE_BYTE`: the byte, standing at the front of `BUF` before the first 0xA9, is discarded (R83). Where it does not
stand there, there is nothing to discard (entry 17). -/
def garbageByte (b : Byte) (s : State) : State :=
  if s.buf.head? = some b then s.discardFront 1 else s

/-- Meaning of `SOF` (R82). -/
def execSof (s : State) : Host.Outcome State Fault Refusal := .next (startMarker s)

/-- Meaning of `GARBAGE_BYTE` (R83). -/
def execGarbageByte (b : Byte) (s : State) : Host.Outcome State Fault Refusal :=
  .next (garbageByte b s)

/-- Meaning of `RX` (R80). -/
def execRx (chunk : List Byte) (s : State) : Host.Outcome State Fault Refusal := .next (rx chunk s)

end Sys2Proof.Machine
end

