-- ==== Sys2Proof/Machine/DeviceState.lean ====
section
/-!
DEFINITION. The vocabulary of `STATE`: the ten names and their codes (`10_state.md` R15, `43_power_fsm.md` R119,
decision D1). A name is a label for a code; the register holds any of 256 values (R16).
-/

namespace Sys2Proof.Machine

/-- The names of the device states, the four dead ones among them (R15, R119). -/
inductive DeviceState where
  | standby
  | startUp
  | startupLamp
  | powerOn
  | cooling1
  | cooling2
  | savingCooling1
  | savingCooling2
  | savingStandby
  | unknown
deriving DecidableEq, Repr

/-- `UNKNOWN_CODE`, an unconstrained value in 9..255 (R6, D1; entry 2). -/
def unknownCode : StateCode := BitVec.ofNat 8 (9 + Config.unknownOffset.val)

/-- The numeric code of a named state (R15). Cooling1 = 4 is the source's, 0 to 3 and 5 are decision D1's, 6 to 8 are
from general knowledge (G1); entry 1. -/
def DeviceState.code : DeviceState → StateCode
  | .standby => 0x00#8
  | .startUp => 0x01#8
  | .startupLamp => 0x02#8
  | .powerOn => 0x03#8
  | .cooling1 => 0x04#8
  | .cooling2 => 0x05#8
  | .savingCooling1 => 0x06#8
  | .savingCooling2 => 0x07#8
  | .savingStandby => 0x08#8
  | .unknown => unknownCode

end Sys2Proof.Machine
end

