-- ==== Sys2Proof/Machine/Power.lean ====
section
/-!
DEFINITION. The power state machine and the two timeout handlers (`43_power_fsm.md` R110 to R120): the six rows of
format TICK, `TICK` and `IDLE_TIMEOUT`. The model writes the case split of the source's table, not an addition (R118).
-/

namespace Sys2Proof.Machine

/-- Standby to StartUp; the timer continues (R111). -/
def tickStandby (s : State) : State := (s.setDevState DeviceState.startUp.code).tickContinue

/-- StartUp to StartupLamp; the timer continues (R112). -/
def tickStartup (s : State) : State := (s.setDevState DeviceState.startupLamp.code).tickContinue

/-- StartupLamp to PowerOn; the timer stops in the same step (R113). -/
def tickStartuplamp (s : State) : State := (s.setDevState DeviceState.powerOn.code).timerStop .tick

/-- PowerOn to Cooling1; the timer continues (R114). -/
def tickPoweron (s : State) : State := (s.setDevState DeviceState.cooling1.code).tickContinue

/-- Cooling1 to Cooling2; the timer continues (R115). -/
def tickCooling1 (s : State) : State := (s.setDevState DeviceState.cooling2.code).tickContinue

/-- Cooling2 and every value the table does not list to Standby; the timer stops (R116). The value left behind is the
operand; nothing is computed from it. -/
def tickDefault (_left : StateCode) (s : State) : State :=
  (s.setDevState DeviceState.standby.code).timerStop .tick

/-- The transition table, applied once for the state code `c` (R110). -/
def tickRow (c : StateCode) (s : State) : State :=
  if c = DeviceState.standby.code then tickStandby s
  else if c = DeviceState.startUp.code then tickStartup s
  else if c = DeviceState.startupLamp.code then tickStartuplamp s
  else if c = DeviceState.powerOn.code then tickPoweron s
  else if c = DeviceState.cooling1.code then tickCooling1 s
  else tickDefault c s

/-- `TICK`: nothing while the state timer is not armed (D4), else the row that `STATE` selects (R110). -/
def stateTick (s : State) : State :=
  if s.tickArmed then tickRow s.devState s else s

/-- `IDLE_TIMEOUT`: nothing while the idle timer is not armed (D4), else `BUF` is cleared and the single-shot timer is
no longer armed (R120). -/
def idleTimeout (s : State) : State :=
  if s.idleArmed then s.clearBuf.idleExpired else s

/-- Meaning of `TICK_STANDBY` (R111). -/
def execTickStandby (s : State) : Host.Outcome State Fault Refusal := .next (tickStandby s)

/-- Meaning of `TICK_STARTUP` (R112). -/
def execTickStartup (s : State) : Host.Outcome State Fault Refusal := .next (tickStartup s)

/-- Meaning of `TICK_STARTUPLAMP` (R113). -/
def execTickStartuplamp (s : State) : Host.Outcome State Fault Refusal := .next (tickStartuplamp s)

/-- Meaning of `TICK_POWERON` (R114). -/
def execTickPoweron (s : State) : Host.Outcome State Fault Refusal := .next (tickPoweron s)

/-- Meaning of `TICK_COOLING1` (R115). -/
def execTickCooling1 (s : State) : Host.Outcome State Fault Refusal := .next (tickCooling1 s)

/-- Meaning of `TICK_DEFAULT` (R116). -/
def execTickDefault (left : StateCode) (s : State) : Host.Outcome State Fault Refusal :=
  .next (tickDefault left s)

/-- Meaning of `TICK` (R110). -/
def execTick (s : State) : Host.Outcome State Fault Refusal := .next (stateTick s)

/-- Meaning of `IDLE_TIMEOUT` (R120). -/
def execIdleTimeout (s : State) : Host.Outcome State Fault Refusal := .next (idleTimeout s)

end Sys2Proof.Machine
end

