-- ==== Sys2Proof/Machine/Reset.lean ====
section
/-!
DEFINITION. `RESET` (`70_reset_and_hazards.md` R160, R161): construction, or destruction followed by construction.
-/

namespace Sys2Proof.Machine

/-- `RESET`: every item takes its reset value and the output trace starts empty (R160). The parameters the
block is built with, the events the environment has still to offer and the global time stay (entries 24 and 26). -/
def construct (s : State) : State := { State.reset with params := s.params, inbox := s.inbox, now := s.now }

/-- Meaning of `RESET` (R160, R161). -/
def execReset (s : State) : Host.Outcome State Fault Refusal := .next (construct s)

end Sys2Proof.Machine
end

