-- ==== Sys2Proof/Machine/Dispatch.lean ====
section
/-!
DEFINITION. One arm per row of the opcode table.
-/

namespace Sys2Proof.Machine

def exec (i : Instr) (s : State) : Host.Outcome State Fault Refusal :=
  match i with
  | .statusQuery => Sys2Proof.Machine.execStatusQuery s
  | .powerOn => Sys2Proof.Machine.execPowerOn s
  | .powerOff => Sys2Proof.Machine.execPowerOff s
  | .unrecognized window => Sys2Proof.Machine.execUnrecognized window s
  | .statusResponse ss cc => Sys2Proof.Machine.execStatusResponse ss cc s
  | .sof => Sys2Proof.Machine.execSof s
  | .garbageByte byte => Sys2Proof.Machine.execGarbageByte byte s
  | .tickStandby => Sys2Proof.Machine.execTickStandby s
  | .tickStartup => Sys2Proof.Machine.execTickStartup s
  | .tickStartuplamp => Sys2Proof.Machine.execTickStartuplamp s
  | .tickPoweron => Sys2Proof.Machine.execTickPoweron s
  | .tickCooling1 => Sys2Proof.Machine.execTickCooling1 s
  | .tickDefault state => Sys2Proof.Machine.execTickDefault state s
  | .rx chunk => Sys2Proof.Machine.execRx chunk s
  | .idleTimeout => Sys2Proof.Machine.execIdleTimeout s
  | .tick => Sys2Proof.Machine.execTick s
  | .reset => Sys2Proof.Machine.execReset s
  | .buildStatusQuery => Sys2Proof.Machine.execBuildStatusQuery s
  | .buildPowerCommand on => Sys2Proof.Machine.execBuildPowerCommand on s
  | .matchFrame window => Sys2Proof.Machine.execMatchFrame window s

end Sys2Proof.Machine
end

