-- ==== Sys2Proof/Decode.lean ====
section
/-!
DEFINITION. The byte order of a frame, the opcode table's rows, the decoder and the encoder
(`30_encoding.md` R50 to R61 and section 6, `00_scope.md` R8). The decoder is written from the table's match and
mask; the machine's own classifier, `matchFrame`, is written from R73, and that the two agree is an obligation.
-/

namespace Sys2Proof

/-- The bytes of a frame in wire order, byte 0 first (R8, R31). -/
def Frame.toList (W : Frame) : List Byte :=
  [W.b0, W.b1, W.b2, W.b3, W.b4, W.b5, W.b6, W.b7]

/-- Exactly eight bytes make a frame; no other length does (R74). -/
def Frame.ofList? : List Byte → Option Frame
  | [b0, b1, b2, b3, b4, b5, b6, b7] => some ⟨b0, b1, b2, b3, b4, b5, b6, b7⟩
  | _ => none

/-- Byte `k` of a 64-bit frame value, byte 0 being bits 63:56 (R8, R50). -/
def frameByte (v : BitVec 64) (k : Nat) : Byte := v.extractLsb' (56 - 8 * k) 8

/-- The frame written as the 64-bit value `v`: byte 0 is the most significant byte (R8). -/
def Frame.ofBits (v : BitVec 64) : Frame :=
  ⟨frameByte v 0, frameByte v 1, frameByte v 2, frameByte v 3,
   frameByte v 4, frameByte v 5, frameByte v 6, frameByte v 7⟩

/-- The 64-bit value of a frame, `W[0]*2^56 + W[1]*2^48 + ... + W[7]` (R8). -/
def Frame.toBits (W : Frame) : BitVec 64 :=
  W.b0 ++ W.b1 ++ W.b2 ++ W.b3 ++ W.b4 ++ W.b5 ++ W.b6 ++ W.b7

/-- A 64-bit row of the table: its match and its mask, cut into bytes. -/
structure FrameRow where
  pattern : Frame
  mask : Frame
deriving DecidableEq, Repr

/-- `(value & mask) = match` for a 64-bit row. -/
def FrameRow.takes (r : FrameRow) (W : Frame) : Bool :=
  (W.b0 &&& r.mask.b0) == r.pattern.b0 && (W.b1 &&& r.mask.b1) == r.pattern.b1 &&
  (W.b2 &&& r.mask.b2) == r.pattern.b2 && (W.b3 &&& r.mask.b3) == r.pattern.b3 &&
  (W.b4 &&& r.mask.b4) == r.pattern.b4 && (W.b5 &&& r.mask.b5) == r.pattern.b5 &&
  (W.b6 &&& r.mask.b6) == r.pattern.b6 && (W.b7 &&& r.mask.b7) == r.pattern.b7

/-- Row `STATUS_QUERY` (R52). -/
def rowStatusQuery : FrameRow := ⟨.ofBits 0xA90102010000039A#64, .ofBits 0xFFFFFFFFFFFFFFFF#64⟩

/-- Row `POWER_ON` (R53). -/
def rowPowerOn : FrameRow := ⟨.ofBits 0xA9172E0000003F9A#64, .ofBits 0xFFFFFFFFFFFFFFFF#64⟩

/-- Row `POWER_OFF` (R54). -/
def rowPowerOff : FrameRow := ⟨.ofBits 0xA9172F0000003F9A#64, .ofBits 0xFFFFFFFFFFFFFFFF#64⟩

/-- Row `STATUS_RESPONSE`: byte 5 is the field `ss`, byte 6 the field `cc` (R55). -/
def rowStatusResponse : FrameRow := ⟨.ofBits 0xA90102020000009A#64, .ofBits 0xFFFFFFFFFF0000FF#64⟩

/-- Format FRAME_RX: the rows in the table's priority order, the all-matching `UNRECOGNIZED` last (R57, R58). -/
def decodeFrameRx (W : Frame) : Instr :=
  if rowStatusQuery.takes W then .statusQuery
  else if rowPowerOn.takes W then .powerOn
  else if rowPowerOff.takes W then .powerOff
  else .unrecognized W

/-- Format FRAME_TX: its one row, taken by match and mask whatever the two fields hold (entry 14). -/
def decodeFrameTx (W : Frame) : Option Instr :=
  if rowStatusResponse.takes W then some (.statusResponse W.b5 W.b6) else none

/-- Format BYTE_SCAN: 0xA9 is `SOF`, every other byte `GARBAGE_BYTE` (R60). -/
def decodeByteScan (b : Byte) : Instr :=
  if b = 0xA9#8 then .sof else .garbageByte b

/-- Format TICK: the value of `STATE` selects the row (R61). -/
def decodeTick (s : StateCode) : Instr :=
  if s = 0x00#8 then .tickStandby
  else if s = 0x01#8 then .tickStartup
  else if s = 0x02#8 then .tickStartuplamp
  else if s = 0x03#8 then .tickPoweron
  else if s = 0x04#8 then .tickCooling1
  else .tickDefault s

/-- Why bytes decode to no row of a format. A decode error is never an outcome of the machine: the machine decodes
windows, single bytes and values of `STATE`, which every FRAME_RX, BYTE_SCAN and TICK table takes (R140). -/
inductive DecodeError where
  /-- The format's rows have another length (R50, R74). -/
  | wrongLength (format : Format) (got : Nat)
  /-- No row of the format takes the value; only FRAME_TX has such values (R55). -/
  | noRow (format : Format)
  /-- The argument byte of BUILD_POWER_COMMAND is neither 00 nor 01 (R71; entry 22). -/
  | notABoolean
deriving DecidableEq, Repr

/-- One window in the bytes, or the rejection. -/
def asFrame (format : Format) (bytes : List Byte) : Except DecodeError Frame :=
  match Frame.ofList? bytes with
  | some W => .ok W
  | none => .error (.wrongLength format bytes.length)

/-- One byte, or the rejection. -/
def asByte (format : Format) (bytes : List Byte) : Except DecodeError Byte :=
  match bytes with
  | [b] => .ok b
  | _ => .error (.wrongLength format bytes.length)

/-- No bytes, or the rejection. -/
def asEmpty (format : Format) (i : Instr) (bytes : List Byte) : Except DecodeError Instr :=
  match bytes with
  | [] => .ok i
  | _ => .error (.wrongLength format bytes.length)

/-- The argument of BUILD_POWER_COMMAND as one byte (entry 22). -/
def asPowerArgument (bytes : List Byte) : Except DecodeError Instr :=
  match asByte .codecOpBuildPwr bytes with
  | .ok b =>
    if b = 0x00#8 then .ok (.buildPowerCommand false)
    else if b = 0x01#8 then .ok (.buildPowerCommand true)
    else .error .notABoolean
  | .error e => .error e

/-- The decoder: total on every format and every byte string. The payload of a row without bits is the argument its
rule names (the chunk of `RX`, the window of `MATCH_FRAME`); entry 22. -/
def decode (format : Format) (bytes : List Byte) : Except DecodeError Instr :=
  match format with
  | .frameRx =>
    match asFrame format bytes with
    | .ok W => .ok (decodeFrameRx W)
    | .error e => .error e
  | .frameTx =>
    match asFrame format bytes with
    | .ok W =>
      match decodeFrameTx W with
      | some i => .ok i
      | none => .error (.noRow format)
    | .error e => .error e
  | .byteScan =>
    match asByte format bytes with
    | .ok b => .ok (decodeByteScan b)
    | .error e => .error e
  | .tick =>
    match asByte format bytes with
    | .ok s => .ok (decodeTick s)
    | .error e => .error e
  | .eventRx => .ok (.rx bytes)
  | .eventIdleTimeout => asEmpty format .idleTimeout bytes
  | .eventTick => asEmpty format .tick bytes
  | .eventReset => asEmpty format .reset bytes
  | .codecOpBuildSq => asEmpty format .buildStatusQuery bytes
  | .codecOpBuildPwr => asPowerArgument bytes
  | .codecOpMatch =>
    match asFrame format bytes with
    | .ok W => .ok (.matchFrame W)
    | .error e => .error e

/-- The encoder: the format and the bytes of an instruction, in wire order, from the table's rows. -/
def encode : Instr → Format × List Byte
  | .statusQuery => (.frameRx, rowStatusQuery.pattern.toList)
  | .powerOn => (.frameRx, rowPowerOn.pattern.toList)
  | .powerOff => (.frameRx, rowPowerOff.pattern.toList)
  | .unrecognized W => (.frameRx, W.toList)
  | .statusResponse ss cc => (.frameTx, [0xA9#8, 0x01#8, 0x02#8, 0x02#8, 0x00#8, ss, cc, 0x9A#8])
  | .sof => (.byteScan, [0xA9#8])
  | .garbageByte b => (.byteScan, [b])
  | .tickStandby => (.tick, [0x00#8])
  | .tickStartup => (.tick, [0x01#8])
  | .tickStartuplamp => (.tick, [0x02#8])
  | .tickPoweron => (.tick, [0x03#8])
  | .tickCooling1 => (.tick, [0x04#8])
  | .tickDefault s => (.tick, [s])
  | .rx chunk => (.eventRx, chunk)
  | .idleTimeout => (.eventIdleTimeout, [])
  | .tick => (.eventTick, [])
  | .reset => (.eventReset, [])
  | .buildStatusQuery => (.codecOpBuildSq, [])
  | .buildPowerCommand on => (.codecOpBuildPwr, [if on then 0x01#8 else 0x00#8])
  | .matchFrame W => (.codecOpMatch, W.toList)

/-- The format under which the host reads a 64-bit table word: a word that the FRAME_TX row takes is read as FRAME_TX,
every other one as FRAME_RX. The table's word carries no format; entry 15. -/
def frameFormat (W : Frame) : Format :=
  if rowStatusResponse.takes W then .frameTx else .frameRx

/-- The format under which the host reads an 8-bit table word: a code that R15 gives a name (0x00 to 0x08) is read as
a value of `STATE`, every other byte as a byte of the marker search. The table's word carries no format; entry 15. -/
def byteFormat (b : Byte) : Format :=
  if b.toNat ≤ 8 then .tick else .byteScan

/-- What `decode` reads under a format, as an option. -/
def decode? (format : Format) (bytes : List Byte) : Option Instr :=
  match decode format bytes with
  | .ok i => some i
  | .error _ => none

/-- The instruction the decoder reads from a table word of `nbits` bits, numbered as `spec/opcode_table.json` numbers
them: bits 63:56 of a 64-bit word are byte 0. A row of width 0 has no bits to read (R61) and gives none; entry 15. -/
def decodeTableWord (nbits w : Nat) : Option Instr :=
  if nbits = 64 then
    let W := Frame.ofBits (BitVec.ofNat 64 w)
    decode? (frameFormat W) W.toList
  else if nbits = 8 then
    let b := BitVec.ofNat 8 w
    decode? (byteFormat b) [b]
  else none

end Sys2Proof
end

