-- ==== Sys2Proof/Machine/Events.lean ====
section
/-!
DEFINITION. Events: which row an offered input runs (`60_exceptions.md` R130 to R134) and how the host's table words
reach the machine as inputs (assumption log entries 12 and 16).
-/

namespace Sys2Proof.Machine

/-- The row of the opcode table that an input runs (R130; R70 to R73 for the Codec calls). -/
def Input.toInstr : Input → Instr
  | .rx chunk => .rx chunk
  | .idleTimeout => .idleTimeout
  | .tick => .tick
  | .reset => .reset
  | .buildStatusQuery => .buildStatusQuery
  | .buildPowerCommand on => .buildPowerCommand on
  | .buildStatusResponse s => .statusResponse s (0x03#8 ||| s)
  | .matchFrame W => .matchFrame W

/-- A window of no effect that begins with 0xA9: it sets the alignment for a window that does not (R33, R105). -/
def alignmentWindow : Frame :=
  ⟨0xA9#8, 0x00#8, 0x00#8, 0x00#8, 0x00#8, 0x00#8, 0x00#8, 0x00#8⟩

/-- The chunk whose last window is `W` when it arrives on an empty buffer: `W` itself where it begins with 0xA9, else
`W` behind an alignment window, since only a later window of an event can begin otherwise (R85; entry 16). -/
def windowChunk (W : Frame) : List Byte :=
  if W.b0 = sofByte then W.toList else alignmentWindow.toList ++ W.toList

/-- Offer an input ahead of all others. -/
def State.offer (s : State) (i : Input) : State := { s with inbox := i :: s.inbox }

/-- A chunk arriving on an empty buffer. -/
def State.offerChunk (s : State) (chunk : List Byte) : State :=
  ({ s with buf := [] } : State).offer (.rx chunk)

/-- A tick whose row `STATE` = `c` selects, the state timer being armed (R110). -/
def State.offerTick (s : State) (c : StateCode) : State :=
  ({ s with devState := c, tickArmed := true } : State).offer .tick

/-- Set what it takes for the very next step to run the instruction: for a window or a byte, its arrival on an empty
buffer; for a TICK row, the value of `STATE` that selects it and an armed timer; for an event or a Codec operation, its
being offered (entry 16). -/
def State.stage (s : State) (i : Instr) : State :=
  match i with
  | .statusQuery => s.offerChunk rowStatusQuery.pattern.toList
  | .powerOn => s.offerChunk rowPowerOn.pattern.toList
  | .powerOff => s.offerChunk rowPowerOff.pattern.toList
  | .unrecognized W => s.offerChunk (windowChunk W)
  | .statusResponse ss _ => s.offer (.buildStatusResponse ss)
  | .sof => s.offerChunk [sofByte]
  | .garbageByte b => s.offerChunk [b]
  | .tickStandby => s.offerTick 0x00#8
  | .tickStartup => s.offerTick 0x01#8
  | .tickStartuplamp => s.offerTick 0x02#8
  | .tickPoweron => s.offerTick 0x03#8
  | .tickCooling1 => s.offerTick 0x04#8
  | .tickDefault c => s.offerTick c
  | .rx chunk => s.offer (.rx chunk)
  | .idleTimeout => s.offer .idleTimeout
  | .tick => s.offer .tick
  | .reset => s.offer .reset
  | .buildStatusQuery => s.offer .buildStatusQuery
  | .buildPowerCommand on => s.offer (.buildPowerCommand on)
  | .matchFrame W => s.offer (.matchFrame W)

end Sys2Proof.Machine
end

