-- ==== Sys2Proof/Machine/Step.lean ====
section
/-!
DEFINITION. One step: the block takes the event at the head of the list and runs its handler to completion, or, with
no event offered, stays as it is (`00_scope.md` R7, `20_memory.md` R38, `60_exceptions.md` R130, R135).
-/

namespace Sys2Proof.Machine

/-- One step of the machine (R7, R38). The block never steps on its own: with nothing offered, nothing changes (R130,
R160; entry 12). -/
def step (s : State) : Host.Outcome State Fault Refusal :=
  match s.inbox with
  | [] => .next s
  | i :: rest => exec i.toInstr (s.takeEvent rest)

/-- The state in which the very next step runs the instruction that a table word stands for (entry 16); a word that
stands for none changes nothing. -/
def State.withFetchWord (s : State) (nbits w : Nat) : State :=
  match decodeTableWord nbits w with
  | some i => s.stage i
  | none => s

end Sys2Proof.Machine
end

