-- ==== Sys2Proof/Machine/ClosedForm.lean ====
section
/-!
DEFINITION. The closed form of the receive handler (`41_framing.md` R88, R89): which windows an `RX` event dispatches
and what it leaves. The normative definition is the loop of `Framing.lean` (R80).
-/

namespace Sys2Proof.Machine

/-- `T[8k .. 8k+7]` for `k = 0, 1, ..., floor(len(T) / 8) - 1`, in this order (R89). -/
def windowsOf : List Byte → List Frame
  | b0 :: b1 :: b2 :: b3 :: b4 :: b5 :: b6 :: b7 :: rest => ⟨b0, b1, b2, b3, b4, b5, b6, b7⟩ :: windowsOf rest
  | _ => []

/-- `T[8m..]` with `m = floor(len(T) / 8)`: what the loop leaves (R88, R89). -/
def leftOver (T : List Byte) : List Byte := T.drop (8 * (T.length / 8))

/-- Dispatch windows one after the other, front to back (R107). -/
def dispatchAll (Ws : List Frame) (s : State) : State := Ws.foldl (fun t W => dispatch W t) s

/-- `T`, the bytes the framing loop works on: from the first 0xA9 of `BUF ++ chunk` on, or none (R89). -/
def alignedBytes (s : State) (chunk : List Byte) : List Byte :=
  match findSof (s.buf ++ chunk) with
  | none => []
  | some i => (s.buf ++ chunk).drop i

/-- The bytes the marker search of the event discards: everything before the first 0xA9, or everything (R83). -/
def discardedBytes (s : State) (chunk : List Byte) : List Byte :=
  match findSof (s.buf ++ chunk) with
  | none => s.buf ++ chunk
  | some i => (s.buf ++ chunk).take i

/-- The windows an `RX(chunk)` event dispatches, in order (R89). -/
def dispatchedWindows (s : State) (chunk : List Byte) : List Frame := windowsOf (alignedBytes s chunk)

/-- The log after the discard: one log point if anything was discarded (R80, R150). -/
def garbageLog (log : List LogEntry) (bytes : List Byte) : List LogEntry :=
  if bytes.isEmpty then log else log ++ [.garbage bytes]

/-- The window is a status query (R102). -/
def isQueryWindow (W : Frame) : Bool :=
  match matchFrame W with
  | .statusQuery => true
  | .powerOn => false
  | .powerOff => false
  | .unrecognized => false

/-- The window is a power command, either one (R103, R104). -/
def isPowerWindow (W : Frame) : Bool :=
  match matchFrame W with
  | .statusQuery => false
  | .powerOn => true
  | .powerOff => true
  | .unrecognized => false

/-- `RX(chunk)` in closed form (R89). -/
def rxClosed (chunk : List Byte) (s : State) : State :=
  ({ dispatchAll (dispatchedWindows s chunk) { s with log := garbageLog s.log (discardedBytes s chunk) } with
      buf := leftOver (alignedBytes s chunk) } : State).idleControl

end Sys2Proof.Machine
end

