-- ==== Sys2Proof/Machine/Stream.lean ====
section
/-!
DEFINITION. The streaming realisation of the receive handler (`41_framing.md` R93): byte by byte, with an 8-byte window
register and two phases. An implementation note of the spec; the normative definition is R80.
-/

namespace Sys2Proof.Machine

/-- The phase inside one event. It is not state: every event starts in SEARCH (R93). -/
inductive Phase where
  /-- Dropping bytes until one is 0xA9; the dropped bytes are remembered for the log point only. -/
  | search (dropped : List Byte)
  /-- Collecting a window; fewer than eight bytes are held. -/
  | frame (held : List Byte)
deriving DecidableEq, Repr

/-- One byte of the stream (R93). -/
def streamByte (b : Byte) (p : Phase × State) : Phase × State :=
  match p.1 with
  | .search dropped =>
    if b = sofByte then (.frame [b], { p.2 with log := garbageLog p.2.log dropped })
    else (.search (dropped ++ [b]), p.2)
  | .frame held =>
    match Frame.ofList? (held ++ [b]) with
    | some W => (.frame [], dispatch W p.2)
    | none => (.frame (held ++ [b]), p.2)

/-- The end of the chunk: a partial window stays as the resident bytes, nothing stays of a search (R93). -/
def streamEnd (p : Phase × State) : State :=
  match p.1 with
  | .search dropped => ({ p.2 with buf := [], log := garbageLog p.2.log dropped } : State).idleControl
  | .frame held => ({ p.2 with buf := held } : State).idleControl

/-- `RX(chunk)` as a stream: the resident bytes followed by the chunk (R93). -/
def rxStream (chunk : List Byte) (s : State) : State :=
  streamEnd ((s.buf ++ chunk).foldl (fun p b => streamByte b p) (.search [], s))

end Sys2Proof.Machine
end

