-- ==== Sys2Proof/Machine/Timed.lean ====
section
/-!
DEFINITION. The timed refinement (`60_exceptions.md` R149, `43_power_fsm.md` R122): time passes between events, and a
timeout is delivered exactly when its timer's remaining time is 0. `step` is the untimed, normative model (D3); this
file restricts which of its events may come when.
-/

namespace Sys2Proof.Machine

/-- What can happen in a timed run: an event, or time passing by a whole number of milliseconds (DESIGN CHOICE, entry
25). -/
inductive TimedEvent where
  | event (i : Input)
  | elapse (ms : Nat)
deriving DecidableEq, Repr

/-- An armed timer with no remaining time: its timeout is due (R149). -/
def State.due (s : State) (t : Timer) : Bool :=
  match t with
  | .idle => s.idleArmed && s.idleRem == 0
  | .tick => s.tickArmed && s.tickRem == 0

/-- A timeout is delivered when it is due; every other event may come at any time (R149, R131), a chunk within the
parameter `MAX_CHUNK` (R6). -/
def timedAdmits (s : State) : Input → Bool
  | .idleTimeout => s.due .idle
  | .tick => s.due .tick
  | .rx chunk => chunkAdmitted s.params.maxChunk chunk
  | .reset => true
  | .buildStatusQuery => true
  | .buildPowerCommand _ => true
  | .buildStatusResponse _ => true
  | .matchFrame _ => true

/-- Time may advance by `d` only if `d` is at most every armed timer's remaining time (R149). -/
def elapseAdmits (s : State) (d : Nat) : Bool :=
  (!s.idleArmed || decide (d ≤ s.idleRem)) && (!s.tickArmed || decide (d ≤ s.tickRem))

/-- Time advances by `d` milliseconds: each armed timer's remaining time goes down (R149). The resolution of time, which the
spec leaves open (R149, N9), is the model's choice: a whole number of milliseconds, nothing finer (entry 25). -/
def State.elapse (s : State) (d : Nat) : State :=
  { s with
    now := s.now + d
    idleRem := if s.idleArmed then s.idleRem - d else s.idleRem
    tickRem := if s.tickArmed then s.tickRem - d else s.tickRem }

/-- One transition of the timed refinement; none where it does not admit the event (R149). -/
def timedStep (e : TimedEvent) (s : State) : Option State :=
  match e with
  | .event i =>
    if timedAdmits s i then
      match exec i.toInstr s with
      | .next t => some t
      | .fault _ => none
      | .refused _ => none
    else none
  | .elapse d => if elapseAdmits s d then some (s.elapse d) else none

/-- A timed run. -/
def timedRun : List TimedEvent → State → Option State
  | [], s => some s
  | e :: es, s =>
    match timedStep e s with
    | some t => timedRun es t
    | none => none

/-- The events of a timed run, time left out: what the untimed model is stepped by. -/
def untimedInputs : List TimedEvent → List Input
  | [] => []
  | .event i :: es => i :: untimedInputs es
  | .elapse _ :: es => untimedInputs es

end Sys2Proof.Machine
end

