-- ==== Sys2Proof/Safety.lean ====
section
/-!
DEFINITION. What holds between events, and the terms the statements use: the four architectural items, a run of
instructions, the invariant (`10_state.md` R13, R16 to R18, `95_test_vectors.md` part 4).
-/

namespace Sys2Proof.Machine

/-- The architectural state: four items and nothing else (R7). -/
structure Arch where
  buf : List Byte
  devState : StateCode
  idleArmed : Bool
  tickArmed : Bool
deriving DecidableEq, Repr

/-- The architectural items of a state. -/
def State.arch (s : State) : Arch := ⟨s.buf, s.devState, s.idleArmed, s.tickArmed⟩

/-- Instructions one after the other, stopping at a fault or a refusal. -/
def execAll : List Instr → State → Host.Outcome State Fault Refusal
  | [], s => .next s
  | i :: is, s =>
    match exec i s with
    | .next t => execAll is t
    | .fault r => .fault r
    | .refused r => .refused r

/-- The events of a list of chunks. -/
def rxAll (chunks : List (List Byte)) : List Instr := chunks.map .rx

/-- The invariant between events. -/
structure State.Inv (s : State) : Prop where
  /-- `len(BUF) <= BUF_RESIDENT`, which is 7 (R13, R6). -/
  bufShort : s.buf.length ≤ Config.bufResident
  /-- `IDLE_ARMED = 1` if and only if `len(BUF) != 0` (R17). -/
  idleIffBytes : s.idleArmed = true ↔ s.buf ≠ []
  /-- Only the codes 0x00 to 0x05 are held (R16). -/
  codeSmall : s.devState.toNat ≤ 5
  /-- `TICK_ARMED = 0` implies Standby or PowerOn (R18). -/
  restsWhereStopped : s.tickArmed = false → s.devState = 0x00#8 ∨ s.devState = 0x03#8
  /-- Every frame written is a response with a code that can be held (R102, R133). -/
  onlyResponses : ∀ F ∈ s.tx, ∃ c : StateCode, c.toNat ≤ 5 ∧ F = buildStatusResponse c
  /-- The idle counter never exceeds `IDLE_MS` and is 0 while the timer is not armed (R149; entry 7). -/
  idleCounter : s.idleRem ≤ s.params.idleMs ∧ (s.idleArmed = false → s.idleRem = 0)
  /-- The tick counter never exceeds `TICK_MS` and is 0 while the timer is not armed (R149; entry 7). -/
  tickCounter : s.tickRem ≤ s.params.tickMs ∧ (s.tickArmed = false → s.tickRem = 0)

end Sys2Proof.Machine
end

