-- ==== Sys2Proof/WellFormed.lean ====
section
/-!
DEFINITION. Which terms of `Instr` stand for an instruction of the spec: within one format a row takes a value only
where no earlier row does (`30_encoding.md` section 6), and a response carries the byte 6 of R56.
-/

namespace Sys2Proof

/-- Well-formedness, one check per row that has one:
`UNRECOGNIZED` is a window equal to no template (R58); a `STATUS_RESPONSE` has `cc = 0x03 | ss` (R56); a
`GARBAGE_BYTE` is not 0xA9 (R60); `TICK_DEFAULT` is a value outside 0x00..0x04 (R61); a chunk keeps the parameter `MAX_CHUNK` (R6). -/
def Instr.wellFormed (p : Params) : Instr → Bool
  | .unrecognized W => Machine.matchFrame W == .unrecognized
  | .statusResponse ss cc => cc == (0x03#8 ||| ss)
  | .garbageByte b => b != Machine.sofByte
  | .tickDefault s => decide (4 < s.toNat)
  | .rx chunk => Machine.chunkAdmitted p.maxChunk chunk
  | .statusQuery => true
  | .powerOn => true
  | .powerOff => true
  | .sof => true
  | .tickStandby => true
  | .tickStartup => true
  | .tickStartuplamp => true
  | .tickPoweron => true
  | .tickCooling1 => true
  | .idleTimeout => true
  | .tick => true
  | .reset => true
  | .buildStatusQuery => true
  | .buildPowerCommand _ => true
  | .matchFrame _ => true

/-- `Instr.wellFormed` as a proposition. -/
abbrev Instr.WellFormed (p : Params) (i : Instr) : Prop := i.wellFormed p = true

end Sys2Proof
end

