-- ==== Sys2Proof/Certificates/Slice0/Obligations.lean ====
section
/-!
DEFINITION. The statements for the provers. A field that is the model's own observation (`log`, `timerCalls`,
`codecOut`, `inbox`; entries 10 to 13) or whose value while a timer is stopped is the model's choice (entry 7) is
either left out of a statement that cites rules (both sides are compared with that field of `s` put in) or the
docstring names the entry.
-/

open Sys2Proof Sys2Proof.Machine

/-! ### Reset -/

/-- R160: after `RESET` the four items hold the values of R22 and the output trace is empty, whatever the state was;
`State.reset` is such a state. -/
def Obligations.ResetGivesTheResetValues : Prop :=
  (∀ s : State, ∃ t, exec .reset s = .next t ∧
    t.buf = [] ∧ t.devState = 0x00#8 ∧ t.idleArmed = false ∧ t.tickArmed = false ∧ t.tx = []) ∧
  State.reset.buf = [] ∧ State.reset.devState = 0x00#8 ∧ State.reset.idleArmed = false ∧
  State.reset.tickArmed = false ∧ State.reset.tx = []

/-- R161 with the model's choices of entries 7, 8, 10 to 13, 24 and 26: `RESET` gives `State.reset`, but the parameters, the
events still to come and the global time stay. -/
def Obligations.ResetIsConstructionAgain : Prop :=
  ∀ s : State, exec .reset s = .next { State.reset with params := s.params, inbox := s.inbox, now := s.now }

/-! ### The four commands (format FRAME_RX) -/

/-- R102: one response with the current state, byte for byte, and nothing else. -/
def Obligations.StatusQueryWritesOneResponse : Prop :=
  ∀ s : State, exec .statusQuery s = .next { s with
    tx := s.tx ++ [⟨0xA9#8, 0x01#8, 0x02#8, 0x02#8, 0x00#8, s.devState, 0x03#8 ||| s.devState, 0x9A#8⟩] }

/-- R103, R104: either power command arms the state timer with a full period and changes nothing else; the two have
one effect. The record of the timer transaction (entry 10) is left out of the comparison. -/
def Obligations.PowerCommandsRestartTheStateTimer : Prop :=
  ∀ s : State,
    (∃ t, exec .powerOn s = .next t ∧
      { t with timerCalls := s.timerCalls } = { s with tickArmed := true, tickRem := s.params.tickMs }) ∧
    (∃ t, exec .powerOff s = .next t ∧
      { t with timerCalls := s.timerCalls } = { s with tickArmed := true, tickRem := s.params.tickMs }) ∧
    exec .powerOff s = exec .powerOn s

/-- R105: no state change and no reply; the log point (entry 11) is left out of the comparison. -/
def Obligations.UnrecognizedWindowChangesNothing : Prop :=
  ∀ (W : Frame) (s : State), ∃ t, exec (.unrecognized W) s = .next t ∧ { t with log := s.log } = s

/-- The model's traces (entries 10 and 11): which log points and which timer transactions the commands, the timer rows
and the timeout record. That a stopped state timer's counter is 0 is entry 7,
and that a stopping row executed alone stops the timer in every state is entry 17. -/
def Obligations.TracesRecordTheTransactions : Prop :=
  (∀ (W : Frame) (s t : State), exec (.unrecognized W) s = .next t → t.log = s.log ++ [.unrecognized W]) ∧
  (∀ (i : Instr) (s t : State), i = .powerOn ∨ i = .powerOff → exec i s = .next t →
    t.timerCalls = s.timerCalls ++ [.start .tick] ∧ t.log = s.log) ∧
  (∀ (i : Instr) (s t : State), i = .tickStartuplamp ∨ (∃ c, i = .tickDefault c) → exec i s = .next t →
    t.timerCalls = s.timerCalls ++ [.stop .tick] ∧ t.tickRem = 0 ∧ t.log = s.log) ∧
  (∀ s t : State, exec .idleTimeout s = .next t → t.timerCalls = s.timerCalls ∧ t.log = s.log)

/-- R57, R100: for every window, the action of the dispatcher is the instruction that the FRAME_RX rows of the opcode
table decode, tried by match and mask in priority order. -/
def Obligations.DispatchRunsTheDecodedCommand : Prop :=
  ∀ (W : Frame) (s : State), exec (decodeFrameRx W) s = .next (dispatch W s)

/-- R37: a status query changes none of the four items, and a second power command none that the first has not. -/
def Obligations.QueryAndPowerCommandsAreIdempotent : Prop :=
  ∀ s : State,
    (∃ t, exec .statusQuery s = .next t ∧ t.arch = s.arch) ∧
    (∃ t u, exec .powerOn s = .next t ∧ exec .powerOn t = .next u ∧ u.arch = t.arch) ∧
    (∃ t u, exec .powerOff s = .next t ∧ exec .powerOff t = .next u ∧ u.arch = t.arch)

/-! ### The Codec -/

/-- R70, R71, R72: the bytes of the frames the three builders return, for every argument; the response determines its
state code. -/
def Obligations.BuildersReturnTheTemplates : Prop :=
  buildStatusQuery = ⟨0xA9#8, 0x01#8, 0x02#8, 0x01#8, 0x00#8, 0x00#8, 0x03#8, 0x9A#8⟩ ∧
  buildPowerCommand true = ⟨0xA9#8, 0x17#8, 0x2E#8, 0x00#8, 0x00#8, 0x00#8, 0x3F#8, 0x9A#8⟩ ∧
  buildPowerCommand false = ⟨0xA9#8, 0x17#8, 0x2F#8, 0x00#8, 0x00#8, 0x00#8, 0x3F#8, 0x9A#8⟩ ∧
  (∀ s : StateCode,
    buildStatusResponse s = ⟨0xA9#8, 0x01#8, 0x02#8, 0x02#8, 0x00#8, s, 0x03#8 ||| s, 0x9A#8⟩) ∧
  ∀ s s' : StateCode, buildStatusResponse s = buildStatusResponse s' → s = s'

/-- R73: the verdict of `matchFrame` is exact comparison with the three templates. -/
def Obligations.MatchFrameComparesAllEightBytes : Prop :=
  ∀ W : Frame,
    (matchFrame W = .statusQuery ↔ W = ⟨0xA9#8, 0x01#8, 0x02#8, 0x01#8, 0x00#8, 0x00#8, 0x03#8, 0x9A#8⟩) ∧
    (matchFrame W = .powerOn ↔ W = ⟨0xA9#8, 0x17#8, 0x2E#8, 0x00#8, 0x00#8, 0x00#8, 0x3F#8, 0x9A#8⟩) ∧
    (matchFrame W = .powerOff ↔ W = ⟨0xA9#8, 0x17#8, 0x2F#8, 0x00#8, 0x00#8, 0x00#8, 0x3F#8, 0x9A#8⟩) ∧
    (matchFrame W = .unrecognized ↔ W.toBits ≠ 0xA90102010000039A#64 ∧ W.toBits ≠ 0xA9172E0000003F9A#64 ∧
      W.toBits ≠ 0xA9172F0000003F9A#64)

/-- R70 to R73, R75: each Codec operation as an instruction returns its value through the model's return port (entry
13; for `STATUS_RESPONSE` whatever the field `cc` holds, entry 14) and changes nothing else. -/
def Obligations.CodecOperationsReturnAndTouchNothingElse : Prop :=
  ∀ s : State,
    exec .buildStatusQuery s = .next { s with
      codecOut := some (.frame ⟨0xA9#8, 0x01#8, 0x02#8, 0x01#8, 0x00#8, 0x00#8, 0x03#8, 0x9A#8⟩) } ∧
    (∀ on : Bool, exec (.buildPowerCommand on) s = .next { s with
      codecOut := some (.frame
        ⟨0xA9#8, 0x17#8, if on then 0x2E#8 else 0x2F#8, 0x00#8, 0x00#8, 0x00#8, 0x3F#8, 0x9A#8⟩) }) ∧
    (∀ ss cc : Byte, exec (.statusResponse ss cc) s = .next { s with
      codecOut := some (.frame ⟨0xA9#8, 0x01#8, 0x02#8, 0x02#8, 0x00#8, ss, 0x03#8 ||| ss, 0x9A#8⟩) }) ∧
    (∀ W : Frame, exec (.matchFrame W) s = .next { s with codecOut := some (.verdict (matchFrame W)) })

/-- R77: the round trips of the Codec; a response is never a command, and is a frame with both markers. -/
def Obligations.CodecRoundTrips : Prop :=
  matchFrame buildStatusQuery = .statusQuery ∧
  matchFrame (buildPowerCommand true) = .powerOn ∧
  matchFrame (buildPowerCommand false) = .powerOff ∧
  ∀ s : StateCode, matchFrame (buildStatusResponse s) = .unrecognized ∧
    (buildStatusResponse s).b0 = 0xA9#8 ∧ (buildStatusResponse s).b7 = 0x9A#8 ∧
    (buildStatusResponse s).toList.length = 8

/-- R76, R5: byte 6 of a response is the state code with its two low bits set, and in every template and every
response byte 6 is the OR of bytes 1 to 5. -/
def Obligations.ChecksumByteIsTheOrOfThePayload : Prop :=
  (∀ s : StateCode, (buildStatusResponse s).b6 = (s &&& 0xFC#8) ||| 0x03#8) ∧
  ∀ F : Frame, (F = buildStatusQuery ∨ (∃ on, F = buildPowerCommand on) ∨ ∃ s, F = buildStatusResponse s) →
    F.b6 = F.b1 ||| F.b2 ||| F.b3 ||| F.b4 ||| F.b5

/-! ### The power state machine -/

/-- R111 to R116, and R149 for the new period of the continuing rows: an enabled tick runs the row of the value `STATE` has; each row writes its next state; the four
continuing rows leave the flag and begin a new period, the two stopping rows clear the flag; nothing else changes. The
transaction record (entry 10) and the counter of a stopped timer (entry 7) are left out of the comparison. The rules give a
row its effect in its own state with the timer armed; that a row executed alone has it in every state is the model's choice
of entry 17. -/
def Obligations.TickRowsFollowTheTable : Prop :=
  ∀ s : State,
    exec .tickStandby s = .next { s with devState := 0x01#8, tickRem := s.params.tickMs } ∧
    exec .tickStartup s = .next { s with devState := 0x02#8, tickRem := s.params.tickMs } ∧
    (∃ t, exec .tickStartuplamp s = .next t ∧
      { t with timerCalls := s.timerCalls, tickRem := s.tickRem } = { s with devState := 0x03#8, tickArmed := false }) ∧
    exec .tickPoweron s = .next { s with devState := 0x04#8, tickRem := s.params.tickMs } ∧
    exec .tickCooling1 s = .next { s with devState := 0x05#8, tickRem := s.params.tickMs } ∧
    (∀ c : StateCode, ∃ t, exec (.tickDefault c) s = .next t ∧
      { t with timerCalls := s.timerCalls, tickRem := s.tickRem } = { s with devState := 0x00#8, tickArmed := false }) ∧
    (s.tickArmed = true →
      (s.devState = 0x00#8 → exec .tick s = exec .tickStandby s) ∧
      (s.devState = 0x01#8 → exec .tick s = exec .tickStartup s) ∧
      (s.devState = 0x02#8 → exec .tick s = exec .tickStartuplamp s) ∧
      (s.devState = 0x03#8 → exec .tick s = exec .tickPoweron s) ∧
      (s.devState = 0x04#8 → exec .tick s = exec .tickCooling1 s) ∧
      (4 < s.devState.toNat → exec .tick s = exec (.tickDefault s.devState) s))

/-- R110, R61: `TICK` is no effect while the flag is 0, and otherwise the row that the value of `STATE` decodes to. -/
def Obligations.TickRunsTheRowOfState : Prop :=
  ∀ s : State, exec .tick s = if s.tickArmed then exec (decodeTick s.devState) s else .next s

/-- R118: over all 256 values of `STATE`, the next-state function and when the timer stops; nothing else but the
transaction record and the counter changes. With the flag at 0 (R110) nothing changes. -/
def Obligations.TickNextStateFunction : Prop :=
  ∀ s : State,
    (s.tickArmed = false → exec .tick s = .next s) ∧
    (s.tickArmed = true → ∃ t, exec .tick s = .next t ∧
      t.devState = (if s.devState.toNat ≤ 4 then s.devState + 1#8 else 0x00#8) ∧
      (t.tickArmed = false ↔ t.devState = 0x03#8 ∨ 4 < s.devState.toNat) ∧
      { t with devState := s.devState, tickArmed := s.tickArmed, tickRem := s.tickRem, timerCalls := s.timerCalls } = s)

/-- R117: from a resting point with the timer armed, three ticks walk through the two states between and stop at
the other resting point, and a fourth has no effect. -/
def Obligations.ThreeTicksReachTheOtherRestingPoint : Prop :=
  ∀ (s : State) (rest : List Input), s.tickArmed = true →
    s.inbox = .tick :: .tick :: .tick :: .tick :: rest →
    (s.devState = 0x00#8 → ∃ t1 t2 t3 t4,
      step s = .next t1 ∧ step t1 = .next t2 ∧ step t2 = .next t3 ∧ step t3 = .next t4 ∧
      t1.devState = 0x01#8 ∧ t1.tickArmed = true ∧ t2.devState = 0x02#8 ∧ t2.tickArmed = true ∧
      t3.devState = 0x03#8 ∧ t3.tickArmed = false ∧ t4 = { t3 with inbox := rest }) ∧
    (s.devState = 0x03#8 → ∃ t1 t2 t3 t4,
      step s = .next t1 ∧ step t1 = .next t2 ∧ step t2 = .next t3 ∧ step t3 = .next t4 ∧
      t1.devState = 0x04#8 ∧ t1.tickArmed = true ∧ t2.devState = 0x05#8 ∧ t2.tickArmed = true ∧
      t3.devState = 0x00#8 ∧ t3.tickArmed = false ∧ t4 = { t3 with inbox := rest })

/-- R119, R6, R116: `UNKNOWN_CODE`, whatever value in 9..255 it has (entry 2), is none of the other nine codes of R15, and a
tick takes the default row there. Of those nine, 0 to 5 are decision D1's and 6 to 8 are general knowledge, PRESUMED in
entry 1. -/
def Obligations.UnknownCodeTakesTheDefaultRow : Prop :=
  9 ≤ unknownCode.toNat ∧ decodeTick unknownCode = .tickDefault unknownCode ∧
  ∀ d : DeviceState, d.code = unknownCode → d = .unknown

/-- R120: while the idle timer is armed the timeout clears `BUF` and disarms, and changes nothing else (the counter of the
stopped timer, entry 7, is left out). While it is not armed nothing changes: that clause is the spec's own choice D4 (entry
20). -/
def Obligations.IdleTimeoutClearsTheBuffer : Prop :=
  ∀ s : State,
    (s.idleArmed = true → ∃ t, exec .idleTimeout s = .next t ∧
      { t with idleRem := s.idleRem } = { s with buf := [], idleArmed := false }) ∧
    (s.idleArmed = false → exec .idleTimeout s = .next s)

/-! ### Framing -/

/-- R82, R83 with entry 17: `SOF` writes nothing, and `GARBAGE_BYTE` removes the byte it names from the front of `BUF` and
changes nothing else but the log; where another byte, or none, stands there, nothing changes. That the row alone logs its one
byte, where R80 logs a whole discarded prefix once, is the model's choice of entry 11. -/
def Obligations.ByteScanRows : Prop :=
  ∀ s : State,
    exec .sof s = .next s ∧
    (∀ (b : Byte) (rest : List Byte), s.buf = b :: rest →
      exec (.garbageByte b) s = .next { s with buf := rest, log := s.log ++ [.garbage [b]] }) ∧
    (∀ b : Byte, s.buf.head? ≠ some b → exec (.garbageByte b) s = .next s)

/-- R82, R83: the marker search is the run of the BYTE_SCAN rows that its bytes decode to, up to the grouping of the
log points (entry 11): garbage bytes until the first `SOF`, or to the end. What the two rows do when executed alone is the
model's choice of entry 17. -/
def Obligations.MarkerSearchIsTheRunOfScannedBytes : Prop :=
  ∀ (s : State) (g r : List Byte), (∀ b ∈ g, b ≠ 0xA9#8) →
    (s.buf = g ++ 0xA9#8 :: r → ∃ t, execAll ((g ++ [0xA9#8]).map decodeByteScan) s = .next t ∧
      { t with log := s.markerSearch.log } = s.markerSearch ∧ t.buf = 0xA9#8 :: r) ∧
    (s.buf = g → ∃ t, execAll (g.map decodeByteScan) s = .next t ∧
      { t with log := s.markerSearch.log } = s.markerSearch ∧ t.buf = [])

/-- R80, R89: the handler with its loop equals its closed form, on every state and every chunk, the traces of entries
10 and 11 included. -/
def Obligations.RxEqualsItsClosedForm : Prop :=
  ∀ (chunk : List Byte) (s : State), exec (.rx chunk) s = .next (rxClosed chunk s)

/-- R93: the byte-by-byte realisation with an 8-byte window register gives the same result. -/
def Obligations.RxEqualsTheStreamingRealisation : Prop :=
  ∀ (chunk : List Byte) (s : State), exec (.rx chunk) s = .next (rxStream chunk s)

/-- R80, R85: a step runs decoded instructions: `RX` runs, front to back, the instruction that each window it cuts decodes
to, then keeps the left-over bytes and controls the idle timer. That a row executed alone leaves `BUF`, so that the handler
sets it at the end, is the model's choice of entry 17. -/
def Obligations.RxRunsTheDecodedWindows : Prop :=
  ∀ (chunk : List Byte) (s : State), ∃ u,
    execAll ((dispatchedWindows s chunk).map decodeFrameRx)
      { s with log := garbageLog s.log (discardedBytes s chunk) } = .next u ∧
    exec (.rx chunk) s = .next (({ u with buf := leftOver (alignedBytes s chunk) } : State).idleControl)

/-- R88: with `L` bytes in `BUF`, the loop body runs `floor(L/8)` times, each time shortening `BUF` by 8, and no further
round does anything; `L mod 8` bytes are left. -/
def Obligations.FramingLoopRoundsAndLeftOver : Prop :=
  ∀ s : State,
    (∀ k, k ≤ s.buf.length / 8 → (framingLoop k s).buf.length = s.buf.length - 8 * k) ∧
    (∀ k, s.buf.length / 8 ≤ k → framingLoop k s = framingLoop (s.buf.length / 8) s) ∧
    (framingLoop s.buf.length s).buf.length = s.buf.length % 8

/-- R107: what the windows of a chunk do to the state together: `TICK_ARMED` becomes 1 if one of them is a power command
and is unchanged otherwise, `TX` grows by one identical response per status query, and nothing else that a command
could write changes. -/
def Obligations.RxNetEffect : Prop :=
  ∀ (chunk : List Byte) (s : State), ∃ t, exec (.rx chunk) s = .next t ∧
    t.tickArmed = (s.tickArmed || (dispatchedWindows s chunk).any isPowerWindow) ∧
    t.tx = s.tx ++ List.replicate ((dispatchedWindows s chunk).countP isQueryWindow) (buildStatusResponse s.devState) ∧
    t.devState = s.devState ∧ t.now = s.now ∧ t.codecOut = s.codecOut ∧ t.inbox = s.inbox ∧
    t.idleArmed = !t.buf.isEmpty

/-- R13: after every event `len(BUF) <= 7`; after an `RX` that dispatched no window `BUF` is empty or begins with 0xA9;
after one that dispatched a window any 0 to 7 bytes at all may be left. -/
def Obligations.BufferBetweenEvents : Prop :=
  (∀ (e : Input) (s t : State), s.buf.length ≤ 7 → exec e.toInstr s = .next t → t.buf.length ≤ 7) ∧
  (∀ (chunk : List Byte) (s : State), ∃ t, exec (.rx chunk) s = .next t ∧ t.buf.length ≤ 7 ∧
    (dispatchedWindows s chunk = [] → t.buf = [] ∨ t.buf.head? = some 0xA9#8)) ∧
  (∀ r : List Byte, r.length ≤ 7 → ∃ t,
    exec (.rx ([0xA9#8, 0x00#8, 0x00#8, 0x00#8, 0x00#8, 0x00#8, 0x00#8, 0x00#8] ++ r)) State.reset = .next t ∧ t.buf = r)

/-- R11: between events the register view holds the buffer: `BUF_LEN` is its length, and exactly the registers below
`BUF_LEN` are readable. -/
def Obligations.RegisterViewOfTheBuffer : Prop :=
  ∀ s : State, s.buf.length ≤ 7 →
    s.bufLen.toNat = s.buf.length ∧
    (∀ k : Fin 7, (s.bufReg k).isSome = true ↔ k.val < s.bufLen.toNat) ∧
    s.buf = (List.finRange 7).filterMap s.bufReg

/-- R90: the empty chunk between events searches the resident bytes again, dispatches nothing, and arms the idle timer
for a full `IDLE_MS` if bytes remain. -/
def Obligations.EmptyChunkSearchesAgain : Prop :=
  ∀ s : State, s.buf.length ≤ 7 → ∃ t, exec (.rx []) s = .next t ∧
    (findSof s.buf = none → t.buf = [] ∧ t.idleArmed = false) ∧
    (∀ i, findSof s.buf = some i → t.buf = s.buf.drop i ∧ t.idleArmed = true ∧ t.idleRem = s.params.idleMs) ∧
    t.tickArmed = s.tickArmed ∧ t.tickRem = s.tickRem ∧ t.devState = s.devState ∧ t.tx = s.tx

/-- R96: a chunk with no 0xA9 on a buffer with none clears the buffer and starts no timer; on a buffer that begins with
0xA9 nothing is discarded, and what does not fill a window is kept with the idle timer restarted. -/
def Obligations.GarbageChunks : Prop :=
  ∀ (chunk : List Byte) (s : State), ∃ t, exec (.rx chunk) s = .next t ∧
    ((∀ b ∈ s.buf ++ chunk, b ≠ 0xA9#8) → t.buf = [] ∧ t.idleArmed = false ∧ t.tickArmed = s.tickArmed ∧
      t.tickRem = s.tickRem ∧ t.devState = s.devState ∧ t.tx = s.tx) ∧
    (s.buf.head? = some 0xA9#8 → t.buf = leftOver (s.buf ++ chunk) ∧
      ((s.buf ++ chunk).length < 8 → t.buf = s.buf ++ chunk ∧ t.idleArmed = true ∧ t.idleRem = s.params.idleMs))

/-- R95: chunk-boundary independence in its restricted form, for one boundary: the same items, output and windows, whenever
no 0xA9 has come before the boundary or the bytes after it are aligned. The counters are the same too, by R87 and R149 while
their timers are armed; that the idle counters agree where the idle timer ends stopped, a value R149 calls not meaningful,
is the model's choice of entry 7. -/
def Obligations.ChunkBoundaryIndependenceRestricted : Prop :=
  ∀ (s : State) (c1 c2 : List Byte), ∃ u v w,
    exec (.rx c1) s = .next u ∧ exec (.rx c2) u = .next v ∧ exec (.rx (c1 ++ c2)) s = .next w ∧
    (((∀ b ∈ s.buf ++ c1, b ≠ 0xA9#8) ∨ u.buf ++ c2 = [] ∨ (u.buf ++ c2).head? = some 0xA9#8) →
      v.arch = w.arch ∧ v.tx = w.tx ∧ v.idleRem = w.idleRem ∧ v.tickRem = w.tickRem ∧
      dispatchedWindows s (c1 ++ c2) = dispatchedWindows s c1 ++ dispatchedWindows u c2)

/-- R95, corollary: a stream of garbage without 0xA9, whole windows that begin with 0xA9 and a partial one, fed from the
empty buffer, ends alike under every cutting into one or more chunks. -/
def Obligations.AlignedStreamEndsAlikeUnderEveryCutting : Prop :=
  ∀ (s : State) (g p : List Byte) (fs : List Frame) (chunks : List (List Byte)),
    s.buf = [] → (∀ b ∈ g, b ≠ 0xA9#8) → (∀ F ∈ fs, F.b0 = 0xA9#8) →
    p.length ≤ 7 → (p = [] ∨ p.head? = some 0xA9#8) → chunks ≠ [] →
    chunks.flatten = g ++ fs.flatMap Frame.toList ++ p →
    ∃ v w, execAll (rxAll chunks) s = .next v ∧ exec (.rx chunks.flatten) s = .next w ∧
      v.arch = w.arch ∧ v.tx = w.tx ∧ w.buf = p ∧
      w.tx = s.tx ++ List.replicate (fs.countP isQueryWindow) (buildStatusResponse s.devState)

/-- The source's unrestricted property, which R94 says is false; it is stated to be refuted. -/
def Obligations.ChunkBoundaryIndependenceUnrestricted : Prop :=
  ∀ (s u v w : State) (c1 c2 : List Byte), s.Inv →
    exec (.rx c1) s = .next u → exec (.rx c2) u = .next v → exec (.rx (c1 ++ c2)) s = .next w →
    v.buf = w.buf ∧ v.tx = w.tx

/-- R173: after an idle timeout, the rest of a cut frame with no 0xA9 in it is dropped without a trace in the
architectural state or the output. -/
def Obligations.LateRemainderIsDropped : Prop :=
  ∀ (s : State) (chunk : List Byte), s.idleArmed = true → (∀ b ∈ chunk, b ≠ 0xA9#8) → ∃ t u,
    exec .idleTimeout s = .next t ∧ exec (.rx chunk) t = .next u ∧
    u.arch = ⟨[], s.devState, false, s.tickArmed⟩ ∧ u.tx = s.tx

/-- R177: left-over bytes with no 0xA9 in them do no harm to a following chunk: the same items and output, and by R87 and
R149 the same counters of armed timers; that the idle counters agree where the idle timer ends stopped is the model's choice
of entry 7. -/
def Obligations.LeftOverWithoutMarkerIsHarmless : Prop :=
  ∀ (s : State) (chunk : List Byte), (∀ b ∈ s.buf, b ≠ 0xA9#8) → ∃ t u,
    exec (.rx chunk) s = .next t ∧ exec (.rx chunk) { s with buf := [] } = .next u ∧
    t.arch = u.arch ∧ t.tx = u.tx ∧ t.tickRem = u.tickRem ∧ t.idleRem = u.idleRem

/-- R178: a response fed back whole and aligned is unrecognised for every state code: no answer, no timer started,
nothing kept. -/
def Obligations.NoEchoLoop : Prop :=
  ∀ (s : State) (c : StateCode), s.buf = [] → ∃ t,
    exec (.rx (buildStatusResponse c).toList) s = .next t ∧
    dispatchedWindows s (buildStatusResponse c).toList = [buildStatusResponse c] ∧
    matchFrame (buildStatusResponse c) = .unrecognized ∧
    t.tx = s.tx ∧ t.arch = ⟨[], s.devState, false, s.tickArmed⟩

/-! ### Events, the step, the whole machine -/

/-- R38, R135: a step runs the event at the head of the list on the state that the events before it left, with the rest
of the list kept; with no event offered (entry 12) the block stays as it is. -/
def Obligations.StepRunsTheHeadEvent : Prop :=
  ∀ s : State,
    (∀ (e : Input) (rest : List Input), s.inbox = e :: rest → step s = exec e.toInstr { s with inbox := rest }) ∧
    (s.inbox = [] → step s = .next s)

/-- R38: stepping through a list of events is running their handlers one after the other: no handler sees the events
still to come. -/
def Obligations.EventsRunInArrivalOrder : Prop :=
  ∀ (es : List Input) (s : State), ∃ t,
    Sys2Proof.core.run es.length { s with inbox := es } = .next t ∧
    execAll (es.map Input.toInstr) { s with inbox := [] } = .next t

/-- R140: every instruction, and every step, in every state has a successor state; there is no fault and no refusal. R140 says
so of events; that a row below an event has one when executed alone is the model's choice of entry 17, and that a step with
no event offered has one is that of entry 12. -/
def Obligations.EveryEventHasASuccessor : Prop :=
  (∀ (i : Instr) (s : State), ∃ t, exec i s = .next t) ∧ ∀ s : State, ∃ t, step s = .next t

/-- R13, R16, R17, R18, R102, R149: the invariant between events is kept by every step; that the counter of a stopped timer
is 0 is the model's choice of entry 7. -/
def Obligations.StepKeepsTheInvariant : Prop :=
  ∀ s t : State, s.Inv → step s = .next t → t.Inv

/-- R22: the invariant between events holds after reset; its clauses on the counters of stopped timers rest on entry 7. -/
def Obligations.ResetMeetsTheInvariant : Prop := State.reset.Inv

/-- R23: what each step of the access table leaves unwritten, and which steps write output. -/
def Obligations.AccessTableWrites : Prop :=
  ∀ s t : State,
    (∀ chunk, exec (.rx chunk) s = .next t → t.devState = s.devState) ∧
    (∀ W, exec (decodeFrameRx W) s = .next t →
      t.buf = s.buf ∧ t.devState = s.devState ∧ t.idleArmed = s.idleArmed ∧
      (matchFrame W = .statusQuery → t.tickArmed = s.tickArmed ∧ t.tx = s.tx ++ [buildStatusResponse s.devState]) ∧
      (matchFrame W = .powerOn ∨ matchFrame W = .powerOff → t.tickArmed = true ∧ t.tx = s.tx) ∧
      (matchFrame W = .unrecognized → t.tickArmed = s.tickArmed ∧ t.tx = s.tx)) ∧
    (exec .idleTimeout s = .next t → t.devState = s.devState ∧ t.tickArmed = s.tickArmed ∧ t.tx = s.tx) ∧
    (exec .tick s = .next t → t.buf = s.buf ∧ t.idleArmed = s.idleArmed ∧ t.tx = s.tx)

/-- R23: what each handler reads: framing reads only `BUF`, `TICK` only `STATE` and its flag, `IDLE_TIMEOUT` only its
flag. Two states that agree there get the same values written. -/
def Obligations.AccessTableReads : Prop :=
  ∀ s s' : State,
    (s.buf = s'.buf → ∀ chunk, ∃ t t', exec (.rx chunk) s = .next t ∧ exec (.rx chunk) s' = .next t' ∧
      t.buf = t'.buf ∧ t.idleArmed = t'.idleArmed ∧ dispatchedWindows s chunk = dispatchedWindows s' chunk ∧
      (s.tickArmed = s'.tickArmed → t.tickArmed = t'.tickArmed)) ∧
    (s.devState = s'.devState → s.tickArmed = s'.tickArmed → ∃ t t', exec .tick s = .next t ∧ exec .tick s' = .next t' ∧
      t.devState = t'.devState ∧ t.tickArmed = t'.tickArmed) ∧
    (s.idleArmed = s'.idleArmed → ∃ t t', exec .idleTimeout s = .next t ∧ exec .idleTimeout s' = .next t' ∧
      t.idleArmed = t'.idleArmed ∧ (s.idleArmed = true → t.buf = t'.buf))

/-- R15, R106: only `TICK` and `RESET` ever change `STATE`, only `RX` ever writes output, and only an `RX` with a power
command ever arms the state timer. -/
def Obligations.OnlyTheNamedEventsWrite : Prop :=
  ∀ (s t : State) (e : Input) (rest : List Input), s.inbox = e :: rest → step s = .next t →
    (t.devState ≠ s.devState → e = .tick ∨ e = .reset) ∧
    (t.tx ≠ s.tx → (∃ chunk, e = .rx chunk) ∨ e = .reset) ∧
    (s.tickArmed = false → t.tickArmed = true → ∃ chunk, e = .rx chunk ∧
      ∃ W ∈ dispatchedWindows s chunk, matchFrame W = .powerOn ∨ matchFrame W = .powerOff)

/-- R137: `IDLE_TIMEOUT` and `TICK` touch disjoint state and commute. -/
def Obligations.TimeoutsCommute : Prop :=
  ∀ s : State, ∃ t u v, exec .idleTimeout s = .next t ∧ exec .tick s = .next u ∧
    exec .tick t = .next v ∧ exec .idleTimeout u = .next v

/-- The sentence of R137 that `RX` and `TICK` commute unless the chunk holds a status query. It does not follow from R103
and R110: a power command and a tick that stops the timer, or finds it stopped, do not commute (entry 21). Stated to
be refuted. -/
def Obligations.RxAndTickCommuteWithoutQueries : Prop :=
  ∀ (s t u v w : State) (chunk : List Byte),
    (∀ W ∈ dispatchedWindows s chunk, matchFrame W ≠ .statusQuery) →
    exec (.rx chunk) s = .next t → exec .tick t = .next v →
    exec .tick s = .next u → exec (.rx chunk) u = .next w → v.arch = w.arch

/-- R137, in the form in which it holds: `RX` and `TICK` commute when the chunk holds no command at all (entry 21). The
order of the transaction record is left out of the comparison. -/
def Obligations.RxAndTickCommuteWithoutCommands : Prop :=
  ∀ (s : State) (chunk : List Byte), (∀ W ∈ dispatchedWindows s chunk, matchFrame W = .unrecognized) →
    ∃ t u v w, exec (.rx chunk) s = .next t ∧ exec .tick t = .next v ∧
      exec .tick s = .next u ∧ exec (.rx chunk) u = .next w ∧ { v with timerCalls := w.timerCalls } = w

/-! ### Decoding and encoding -/

/-- Every well-formed instruction of all 20 rows is what its own encoding decodes to, with every operand and under every
parameters. The seven rows without bits have no encoding in the spec (R61): their bytes are the model's choice of entry
22. -/
def Obligations.DecodeOfEncode : Prop :=
  ∀ (p : Params) (i : Instr), i.WellFormed p → decode (encode i).1 (encode i).2 = .ok i

/-- What the decoder reads encodes back to the same format and bytes, and is well-formed, but for a `STATUS_RESPONSE` word
whose field `cc` is not `0x03 | ss`, which the row's mask takes (entry 14), and for a chunk over the bound `MAX_CHUNK`, which
binds the transport and not the decoder (entry 3). For the seven rows without bits the bytes are the model's choice of
entry 22. -/
def Obligations.EncodeOfDecode : Prop :=
  ∀ (p : Params) (f : Format) (bytes : List Byte) (i : Instr), decode f bytes = .ok i →
    encode i = (f, bytes) ∧
    (i.WellFormed p ∨ (∃ ss cc, i = .statusResponse ss cc ∧ cc ≠ (0x03#8 ||| ss)) ∨
      ∃ chunk n, i = .rx chunk ∧ p.maxChunk = some n ∧ n < chunk.length)

/-- R8: a frame and its 64-bit number, byte 0 most significant, determine each other. -/
def Obligations.FrameNumberRoundTrip : Prop :=
  (∀ W : Frame, Frame.ofBits W.toBits = W ∧
    W.toBits.toNat = W.b0.toNat * 2 ^ 56 + W.b1.toNat * 2 ^ 48 + W.b2.toNat * 2 ^ 40 + W.b3.toNat * 2 ^ 32 +
      W.b4.toNat * 2 ^ 24 + W.b5.toNat * 2 ^ 16 + W.b6.toNat * 2 ^ 8 + W.b7.toNat) ∧
  ∀ v : BitVec 64, (Frame.ofBits v).toBits = v

/-- Words written out from the encodings of `30_encoding.md` decode to the instructions they stand for. -/
def Obligations.WrittenOutWordsDecode : Prop :=
  decode .frameRx [0xA9#8, 0x01#8, 0x02#8, 0x01#8, 0x00#8, 0x00#8, 0x03#8, 0x9A#8] = .ok .statusQuery ∧
  decode .frameRx [0xA9#8, 0x17#8, 0x2E#8, 0x00#8, 0x00#8, 0x00#8, 0x3F#8, 0x9A#8] = .ok .powerOn ∧
  decode .frameRx [0xA9#8, 0x17#8, 0x2F#8, 0x00#8, 0x00#8, 0x00#8, 0x3F#8, 0x9A#8] = .ok .powerOff ∧
  decode .frameTx [0xA9#8, 0x01#8, 0x02#8, 0x02#8, 0x00#8, 0x04#8, 0x07#8, 0x9A#8] = .ok (.statusResponse 0x04#8 0x07#8) ∧
  decode .byteScan [0xA9#8] = .ok .sof ∧ decode .tick [0x03#8] = .ok .tickPoweron ∧
  decode .tick [0x05#8] = .ok (.tickDefault 0x05#8)

/-- Entries 15 and 16 (the model's choice): the step after `withFetchWord` runs the instruction that the table word decodes
to: a response word its builder, a window word its arrival on an empty buffer (behind an alignment window where it
does not begin with 0xA9), a state code its TICK row, another byte its arrival on an empty buffer. -/
def Obligations.StagedTableWordsRun : Prop :=
  (∀ (s : State) (v : BitVec 64), rowStatusResponse.takes (Frame.ofBits v) = true →
    step (s.withFetchWord 64 v.toNat) = exec (.statusResponse (Frame.ofBits v).b5 (Frame.ofBits v).b6) s) ∧
  (∀ (s : State) (v : BitVec 64), rowStatusResponse.takes (Frame.ofBits v) = false → ∃ u,
    execAll ((if (Frame.ofBits v).b0 = 0xA9#8 then [] else [.unrecognized alignmentWindow]) ++
      [decodeFrameRx (Frame.ofBits v)]) { s with buf := [] } = .next u ∧
    step (s.withFetchWord 64 v.toNat) = .next (u.timerStop .idle)) ∧
  (∀ (s : State) (b : Byte), b.toNat ≤ 8 →
    step (s.withFetchWord 8 b.toNat) = exec (decodeTick b) { s with devState := b, tickArmed := true }) ∧
  (∀ (s : State) (b : Byte), 8 < b.toNat →
    step (s.withFetchWord 8 b.toNat) = exec (.rx [b]) { s with buf := [] })

/-! ### The timers and the timed refinement -/

/-- R145, R146: a start arms the timer with its full duration, even while running; a stop disarms it and stopping again
changes nothing; neither touches the other timer or any other item. The records of entries 7 and 10 are left out. -/
def Obligations.TimerStartAndStop : Prop :=
  ∀ s : State,
    { s.timerStart .idle with timerCalls := s.timerCalls } = { s with idleArmed := true, idleRem := s.params.idleMs } ∧
    { s.timerStart .tick with timerCalls := s.timerCalls } = { s with tickArmed := true, tickRem := s.params.tickMs } ∧
    { s.timerStop .idle with timerCalls := s.timerCalls, idleRem := s.idleRem } = { s with idleArmed := false } ∧
    { s.timerStop .tick with timerCalls := s.timerCalls, tickRem := s.tickRem } = { s with tickArmed := false } ∧
    ∀ T : Timer, { (s.timerStop T).timerStop T with timerCalls := (s.timerStop T).timerCalls } = s.timerStop T

/-- R149: every run of the timed refinement is a run of the untimed model over the same events: same items, same output,
same traces. -/
def Obligations.TimedRunsAreUntimedRuns : Prop :=
  ∀ (es : List TimedEvent) (s t : State), timedRun es s = some t → ∃ u,
    execAll ((untimedInputs es).map Input.toInstr) s = .next u ∧
    u.arch = t.arch ∧ u.tx = t.tx ∧ u.log = t.log ∧ u.timerCalls = t.timerCalls ∧
    u.codecOut = t.codecOut ∧ u.inbox = t.inbox ∧ u.params = t.params

/-- R122: from the state a power command leaves at a resting point, with no further power command, the other resting
point is reached exactly three periods later, whatever the period (R6): a run reaches it then, and no run of ticks and
passing time is there before or anywhere else after. -/
def Obligations.RestingPointAfterThreePeriods : Prop :=
  ∀ s : State, s.tickArmed = true → s.tickRem = s.params.tickMs → (s.devState = 0x00#8 ∨ s.devState = 0x03#8) →
    (s.idleArmed = false → ∃ t,
      timedRun [.elapse s.params.tickMs, .event .tick, .elapse s.params.tickMs, .event .tick,
        .elapse s.params.tickMs, .event .tick] s = some t ∧
      t.now = s.now + 3 * s.params.tickMs ∧ t.tickArmed = false ∧
      t.devState = (if s.devState = 0x00#8 then 0x03#8 else 0x00#8)) ∧
    (∀ (es : List TimedEvent) (t : State), (∀ e ∈ es, e = .event .tick ∨ ∃ d, e = .elapse d) →
      timedRun es s = some t →
      (t.tickArmed = false → s.now + 3 * s.params.tickMs ≤ t.now) ∧
      (s.now + 3 * s.params.tickMs < t.now → t.tickArmed = false ∧
        t.devState = (if s.devState = 0x00#8 then 0x03#8 else 0x00#8)))

/-- R147, R149: in the timed refinement the idle timer fires no earlier than `IDLE_MS`, whatever it is (R6), after the last
`RX` that left bytes: after such an event, a run of ticks and passing time in which the timeout is then due has lasted that long. -/
def Obligations.IdleTimeoutNotBeforeItsDuration : Prop :=
  ∀ (chunk : List Byte) (s u t : State) (es : List TimedEvent),
    exec (.rx chunk) s = .next u → u.buf ≠ [] →
    (∀ e ∈ es, e = .event .tick ∨ ∃ d, e = .elapse d) → timedRun es u = some t →
    t.buf = u.buf ∧ (timedAdmits t .idleTimeout = true ↔ t.now = u.now + s.params.idleMs)

/-! ### The parameters -/

/-- R144, R19 with decision D17: the parameters are fixed at construction, and no instruction and no step changes them. That
a `RESET` keeps them too is the model's choice of entry 26. -/
def Obligations.NothingChangesTheParameters : Prop :=
  (∀ (i : Instr) (s : State), ∃ t, exec i s = .next t ∧ t.params = s.params) ∧
  ∀ s : State, ∃ t, step s = .next t ∧ t.params = s.params

/-- R6, R180: no rule of the untimed model reads a duration, a chunk bound, a counter or the time. Two states that differ in
these only have the same items, output, traces, return port and events to come after every instruction and every
step. -/
def Obligations.UntimedResultsReadNoDuration : Prop :=
  ∀ (s : State) (p : Params) (a b c : Nat),
    (∀ i : Instr, ∃ t u, exec i s = .next t ∧
      exec i { s with params := p, idleRem := a, tickRem := b, now := c } = .next u ∧
      { u with params := t.params, idleRem := t.idleRem, tickRem := t.tickRem, now := t.now } = t) ∧
    ∃ t u, step s = .next t ∧ step { s with params := p, idleRem := a, tickRem := b, now := c } = .next u ∧
      { u with params := t.params, idleRem := t.idleRem, tickRem := t.tickRem, now := t.now } = t
end

