-- ==== Sys2Proof/Laws/State.lean ====
section
/-!
SUPPORT. One lemma per field per update of State, so that no proof unfolds an update.
-/

namespace Sys2Proof.Machine

/-! The numbers of R6, in the form arithmetic reads. -/

@[simp] theorem stateW_eq : Config.stateW = 8 := rfl
@[simp] theorem bufResident_eq : Config.bufResident = 7 := rfl

/-- `BUF_RESIDENT` is one byte less than a window (R13, R88). -/
theorem bufResident_succ : Config.bufResident + 1 = frameLen := rfl

/-! `append` -/
@[simp] theorem State.append_params (s : State) (c : List Byte) : (s.append c).params = s.params := rfl
@[simp] theorem State.append_buf (s : State) (c : List Byte) : (s.append c).buf = s.buf ++ c := rfl
@[simp] theorem State.append_devState (s : State) (c : List Byte) : (s.append c).devState = s.devState := rfl
@[simp] theorem State.append_idleArmed (s : State) (c : List Byte) : (s.append c).idleArmed = s.idleArmed := rfl
@[simp] theorem State.append_tickArmed (s : State) (c : List Byte) : (s.append c).tickArmed = s.tickArmed := rfl
@[simp] theorem State.append_idleRem (s : State) (c : List Byte) : (s.append c).idleRem = s.idleRem := rfl
@[simp] theorem State.append_tickRem (s : State) (c : List Byte) : (s.append c).tickRem = s.tickRem := rfl
@[simp] theorem State.append_now (s : State) (c : List Byte) : (s.append c).now = s.now := rfl
@[simp] theorem State.append_tx (s : State) (c : List Byte) : (s.append c).tx = s.tx := rfl
@[simp] theorem State.append_timerCalls (s : State) (c : List Byte) : (s.append c).timerCalls = s.timerCalls := rfl
@[simp] theorem State.append_log (s : State) (c : List Byte) : (s.append c).log = s.log := rfl
@[simp] theorem State.append_codecOut (s : State) (c : List Byte) : (s.append c).codecOut = s.codecOut := rfl
@[simp] theorem State.append_inbox (s : State) (c : List Byte) : (s.append c).inbox = s.inbox := rfl

/-! `dropFront` -/
@[simp] theorem State.dropFront_params (s : State) (n : Nat) : (s.dropFront n).params = s.params := rfl
@[simp] theorem State.dropFront_buf (s : State) (n : Nat) : (s.dropFront n).buf = s.buf.drop n := rfl
@[simp] theorem State.dropFront_devState (s : State) (n : Nat) : (s.dropFront n).devState = s.devState := rfl
@[simp] theorem State.dropFront_idleArmed (s : State) (n : Nat) : (s.dropFront n).idleArmed = s.idleArmed := rfl
@[simp] theorem State.dropFront_tickArmed (s : State) (n : Nat) : (s.dropFront n).tickArmed = s.tickArmed := rfl
@[simp] theorem State.dropFront_idleRem (s : State) (n : Nat) : (s.dropFront n).idleRem = s.idleRem := rfl
@[simp] theorem State.dropFront_tickRem (s : State) (n : Nat) : (s.dropFront n).tickRem = s.tickRem := rfl
@[simp] theorem State.dropFront_now (s : State) (n : Nat) : (s.dropFront n).now = s.now := rfl
@[simp] theorem State.dropFront_tx (s : State) (n : Nat) : (s.dropFront n).tx = s.tx := rfl
@[simp] theorem State.dropFront_timerCalls (s : State) (n : Nat) : (s.dropFront n).timerCalls = s.timerCalls := rfl
@[simp] theorem State.dropFront_log (s : State) (n : Nat) : (s.dropFront n).log = s.log := rfl
@[simp] theorem State.dropFront_codecOut (s : State) (n : Nat) : (s.dropFront n).codecOut = s.codecOut := rfl
@[simp] theorem State.dropFront_inbox (s : State) (n : Nat) : (s.dropFront n).inbox = s.inbox := rfl

/-! `clearBuf` -/
@[simp] theorem State.clearBuf_params (s : State) : (s.clearBuf).params = s.params := rfl
@[simp] theorem State.clearBuf_buf (s : State) : (s.clearBuf).buf = [] := rfl
@[simp] theorem State.clearBuf_devState (s : State) : (s.clearBuf).devState = s.devState := rfl
@[simp] theorem State.clearBuf_idleArmed (s : State) : (s.clearBuf).idleArmed = s.idleArmed := rfl
@[simp] theorem State.clearBuf_tickArmed (s : State) : (s.clearBuf).tickArmed = s.tickArmed := rfl
@[simp] theorem State.clearBuf_idleRem (s : State) : (s.clearBuf).idleRem = s.idleRem := rfl
@[simp] theorem State.clearBuf_tickRem (s : State) : (s.clearBuf).tickRem = s.tickRem := rfl
@[simp] theorem State.clearBuf_now (s : State) : (s.clearBuf).now = s.now := rfl
@[simp] theorem State.clearBuf_tx (s : State) : (s.clearBuf).tx = s.tx := rfl
@[simp] theorem State.clearBuf_timerCalls (s : State) : (s.clearBuf).timerCalls = s.timerCalls := rfl
@[simp] theorem State.clearBuf_log (s : State) : (s.clearBuf).log = s.log := rfl
@[simp] theorem State.clearBuf_codecOut (s : State) : (s.clearBuf).codecOut = s.codecOut := rfl
@[simp] theorem State.clearBuf_inbox (s : State) : (s.clearBuf).inbox = s.inbox := rfl

/-! `setDevState` -/
@[simp] theorem State.setDevState_params (s : State) (c : StateCode) : (s.setDevState c).params = s.params := rfl
@[simp] theorem State.setDevState_buf (s : State) (c : StateCode) : (s.setDevState c).buf = s.buf := rfl
@[simp] theorem State.setDevState_devState (s : State) (c : StateCode) : (s.setDevState c).devState = c := rfl
@[simp] theorem State.setDevState_idleArmed (s : State) (c : StateCode) : (s.setDevState c).idleArmed = s.idleArmed := rfl
@[simp] theorem State.setDevState_tickArmed (s : State) (c : StateCode) : (s.setDevState c).tickArmed = s.tickArmed := rfl
@[simp] theorem State.setDevState_idleRem (s : State) (c : StateCode) : (s.setDevState c).idleRem = s.idleRem := rfl
@[simp] theorem State.setDevState_tickRem (s : State) (c : StateCode) : (s.setDevState c).tickRem = s.tickRem := rfl
@[simp] theorem State.setDevState_now (s : State) (c : StateCode) : (s.setDevState c).now = s.now := rfl
@[simp] theorem State.setDevState_tx (s : State) (c : StateCode) : (s.setDevState c).tx = s.tx := rfl
@[simp] theorem State.setDevState_timerCalls (s : State) (c : StateCode) : (s.setDevState c).timerCalls = s.timerCalls := rfl
@[simp] theorem State.setDevState_log (s : State) (c : StateCode) : (s.setDevState c).log = s.log := rfl
@[simp] theorem State.setDevState_codecOut (s : State) (c : StateCode) : (s.setDevState c).codecOut = s.codecOut := rfl
@[simp] theorem State.setDevState_inbox (s : State) (c : StateCode) : (s.setDevState c).inbox = s.inbox := rfl

/-! `trace` -/
@[simp] theorem State.trace_params (s : State) (e : LogEntry) : (s.trace e).params = s.params := rfl
@[simp] theorem State.trace_buf (s : State) (e : LogEntry) : (s.trace e).buf = s.buf := rfl
@[simp] theorem State.trace_devState (s : State) (e : LogEntry) : (s.trace e).devState = s.devState := rfl
@[simp] theorem State.trace_idleArmed (s : State) (e : LogEntry) : (s.trace e).idleArmed = s.idleArmed := rfl
@[simp] theorem State.trace_tickArmed (s : State) (e : LogEntry) : (s.trace e).tickArmed = s.tickArmed := rfl
@[simp] theorem State.trace_idleRem (s : State) (e : LogEntry) : (s.trace e).idleRem = s.idleRem := rfl
@[simp] theorem State.trace_tickRem (s : State) (e : LogEntry) : (s.trace e).tickRem = s.tickRem := rfl
@[simp] theorem State.trace_now (s : State) (e : LogEntry) : (s.trace e).now = s.now := rfl
@[simp] theorem State.trace_tx (s : State) (e : LogEntry) : (s.trace e).tx = s.tx := rfl
@[simp] theorem State.trace_timerCalls (s : State) (e : LogEntry) : (s.trace e).timerCalls = s.timerCalls := rfl
@[simp] theorem State.trace_log (s : State) (e : LogEntry) : (s.trace e).log = s.log ++ [e] := rfl
@[simp] theorem State.trace_codecOut (s : State) (e : LogEntry) : (s.trace e).codecOut = s.codecOut := rfl
@[simp] theorem State.trace_inbox (s : State) (e : LogEntry) : (s.trace e).inbox = s.inbox := rfl

/-! `txWrite` -/
@[simp] theorem State.txWrite_params (s : State) (F : Frame) : (s.txWrite F).params = s.params := rfl
@[simp] theorem State.txWrite_buf (s : State) (F : Frame) : (s.txWrite F).buf = s.buf := rfl
@[simp] theorem State.txWrite_devState (s : State) (F : Frame) : (s.txWrite F).devState = s.devState := rfl
@[simp] theorem State.txWrite_idleArmed (s : State) (F : Frame) : (s.txWrite F).idleArmed = s.idleArmed := rfl
@[simp] theorem State.txWrite_tickArmed (s : State) (F : Frame) : (s.txWrite F).tickArmed = s.tickArmed := rfl
@[simp] theorem State.txWrite_idleRem (s : State) (F : Frame) : (s.txWrite F).idleRem = s.idleRem := rfl
@[simp] theorem State.txWrite_tickRem (s : State) (F : Frame) : (s.txWrite F).tickRem = s.tickRem := rfl
@[simp] theorem State.txWrite_now (s : State) (F : Frame) : (s.txWrite F).now = s.now := rfl
@[simp] theorem State.txWrite_tx (s : State) (F : Frame) : (s.txWrite F).tx = s.tx ++ [F] := rfl
@[simp] theorem State.txWrite_timerCalls (s : State) (F : Frame) : (s.txWrite F).timerCalls = s.timerCalls := rfl
@[simp] theorem State.txWrite_log (s : State) (F : Frame) : (s.txWrite F).log = s.log := rfl
@[simp] theorem State.txWrite_codecOut (s : State) (F : Frame) : (s.txWrite F).codecOut = s.codecOut := rfl
@[simp] theorem State.txWrite_inbox (s : State) (F : Frame) : (s.txWrite F).inbox = s.inbox := rfl

/-! `codecReturn` -/
@[simp] theorem State.codecReturn_params (s : State) (r : CodecResult) : (s.codecReturn r).params = s.params := rfl
@[simp] theorem State.codecReturn_buf (s : State) (r : CodecResult) : (s.codecReturn r).buf = s.buf := rfl
@[simp] theorem State.codecReturn_devState (s : State) (r : CodecResult) : (s.codecReturn r).devState = s.devState := rfl
@[simp] theorem State.codecReturn_idleArmed (s : State) (r : CodecResult) : (s.codecReturn r).idleArmed = s.idleArmed := rfl
@[simp] theorem State.codecReturn_tickArmed (s : State) (r : CodecResult) : (s.codecReturn r).tickArmed = s.tickArmed := rfl
@[simp] theorem State.codecReturn_idleRem (s : State) (r : CodecResult) : (s.codecReturn r).idleRem = s.idleRem := rfl
@[simp] theorem State.codecReturn_tickRem (s : State) (r : CodecResult) : (s.codecReturn r).tickRem = s.tickRem := rfl
@[simp] theorem State.codecReturn_now (s : State) (r : CodecResult) : (s.codecReturn r).now = s.now := rfl
@[simp] theorem State.codecReturn_tx (s : State) (r : CodecResult) : (s.codecReturn r).tx = s.tx := rfl
@[simp] theorem State.codecReturn_timerCalls (s : State) (r : CodecResult) : (s.codecReturn r).timerCalls = s.timerCalls := rfl
@[simp] theorem State.codecReturn_log (s : State) (r : CodecResult) : (s.codecReturn r).log = s.log := rfl
@[simp] theorem State.codecReturn_codecOut (s : State) (r : CodecResult) : (s.codecReturn r).codecOut = some r := rfl
@[simp] theorem State.codecReturn_inbox (s : State) (r : CodecResult) : (s.codecReturn r).inbox = s.inbox := rfl

/-! `takeEvent` -/
@[simp] theorem State.takeEvent_params (s : State) (r : List Input) : (s.takeEvent r).params = s.params := rfl
@[simp] theorem State.takeEvent_buf (s : State) (r : List Input) : (s.takeEvent r).buf = s.buf := rfl
@[simp] theorem State.takeEvent_devState (s : State) (r : List Input) : (s.takeEvent r).devState = s.devState := rfl
@[simp] theorem State.takeEvent_idleArmed (s : State) (r : List Input) : (s.takeEvent r).idleArmed = s.idleArmed := rfl
@[simp] theorem State.takeEvent_tickArmed (s : State) (r : List Input) : (s.takeEvent r).tickArmed = s.tickArmed := rfl
@[simp] theorem State.takeEvent_idleRem (s : State) (r : List Input) : (s.takeEvent r).idleRem = s.idleRem := rfl
@[simp] theorem State.takeEvent_tickRem (s : State) (r : List Input) : (s.takeEvent r).tickRem = s.tickRem := rfl
@[simp] theorem State.takeEvent_now (s : State) (r : List Input) : (s.takeEvent r).now = s.now := rfl
@[simp] theorem State.takeEvent_tx (s : State) (r : List Input) : (s.takeEvent r).tx = s.tx := rfl
@[simp] theorem State.takeEvent_timerCalls (s : State) (r : List Input) : (s.takeEvent r).timerCalls = s.timerCalls := rfl
@[simp] theorem State.takeEvent_log (s : State) (r : List Input) : (s.takeEvent r).log = s.log := rfl
@[simp] theorem State.takeEvent_codecOut (s : State) (r : List Input) : (s.takeEvent r).codecOut = s.codecOut := rfl
@[simp] theorem State.takeEvent_inbox (s : State) (r : List Input) : (s.takeEvent r).inbox = r := rfl

/-! `offer` -/
@[simp] theorem State.offer_params (s : State) (i : Input) : (s.offer i).params = s.params := rfl
@[simp] theorem State.offer_buf (s : State) (i : Input) : (s.offer i).buf = s.buf := rfl
@[simp] theorem State.offer_devState (s : State) (i : Input) : (s.offer i).devState = s.devState := rfl
@[simp] theorem State.offer_idleArmed (s : State) (i : Input) : (s.offer i).idleArmed = s.idleArmed := rfl
@[simp] theorem State.offer_tickArmed (s : State) (i : Input) : (s.offer i).tickArmed = s.tickArmed := rfl
@[simp] theorem State.offer_idleRem (s : State) (i : Input) : (s.offer i).idleRem = s.idleRem := rfl
@[simp] theorem State.offer_tickRem (s : State) (i : Input) : (s.offer i).tickRem = s.tickRem := rfl
@[simp] theorem State.offer_now (s : State) (i : Input) : (s.offer i).now = s.now := rfl
@[simp] theorem State.offer_tx (s : State) (i : Input) : (s.offer i).tx = s.tx := rfl
@[simp] theorem State.offer_timerCalls (s : State) (i : Input) : (s.offer i).timerCalls = s.timerCalls := rfl
@[simp] theorem State.offer_log (s : State) (i : Input) : (s.offer i).log = s.log := rfl
@[simp] theorem State.offer_codecOut (s : State) (i : Input) : (s.offer i).codecOut = s.codecOut := rfl
@[simp] theorem State.offer_inbox (s : State) (i : Input) : (s.offer i).inbox = i :: s.inbox := rfl

/-! `idleExpired` -/
@[simp] theorem State.idleExpired_params (s : State) : (s.idleExpired).params = s.params := rfl
@[simp] theorem State.idleExpired_buf (s : State) : (s.idleExpired).buf = s.buf := rfl
@[simp] theorem State.idleExpired_devState (s : State) : (s.idleExpired).devState = s.devState := rfl
@[simp] theorem State.idleExpired_idleArmed (s : State) : (s.idleExpired).idleArmed = false := rfl
@[simp] theorem State.idleExpired_tickArmed (s : State) : (s.idleExpired).tickArmed = s.tickArmed := rfl
@[simp] theorem State.idleExpired_idleRem (s : State) : (s.idleExpired).idleRem = 0 := rfl
@[simp] theorem State.idleExpired_tickRem (s : State) : (s.idleExpired).tickRem = s.tickRem := rfl
@[simp] theorem State.idleExpired_now (s : State) : (s.idleExpired).now = s.now := rfl
@[simp] theorem State.idleExpired_tx (s : State) : (s.idleExpired).tx = s.tx := rfl
@[simp] theorem State.idleExpired_timerCalls (s : State) : (s.idleExpired).timerCalls = s.timerCalls := rfl
@[simp] theorem State.idleExpired_log (s : State) : (s.idleExpired).log = s.log := rfl
@[simp] theorem State.idleExpired_codecOut (s : State) : (s.idleExpired).codecOut = s.codecOut := rfl
@[simp] theorem State.idleExpired_inbox (s : State) : (s.idleExpired).inbox = s.inbox := rfl

/-! `tickContinue` -/
@[simp] theorem State.tickContinue_params (s : State) : (s.tickContinue).params = s.params := rfl
@[simp] theorem State.tickContinue_buf (s : State) : (s.tickContinue).buf = s.buf := rfl
@[simp] theorem State.tickContinue_devState (s : State) : (s.tickContinue).devState = s.devState := rfl
@[simp] theorem State.tickContinue_idleArmed (s : State) : (s.tickContinue).idleArmed = s.idleArmed := rfl
@[simp] theorem State.tickContinue_tickArmed (s : State) : (s.tickContinue).tickArmed = s.tickArmed := rfl
@[simp] theorem State.tickContinue_idleRem (s : State) : (s.tickContinue).idleRem = s.idleRem := rfl
@[simp] theorem State.tickContinue_tickRem (s : State) : (s.tickContinue).tickRem = s.params.tickMs := rfl
@[simp] theorem State.tickContinue_now (s : State) : (s.tickContinue).now = s.now := rfl
@[simp] theorem State.tickContinue_tx (s : State) : (s.tickContinue).tx = s.tx := rfl
@[simp] theorem State.tickContinue_timerCalls (s : State) : (s.tickContinue).timerCalls = s.timerCalls := rfl
@[simp] theorem State.tickContinue_log (s : State) : (s.tickContinue).log = s.log := rfl
@[simp] theorem State.tickContinue_codecOut (s : State) : (s.tickContinue).codecOut = s.codecOut := rfl
@[simp] theorem State.tickContinue_inbox (s : State) : (s.tickContinue).inbox = s.inbox := rfl

/-! `elapse` -/
@[simp] theorem State.elapse_params (s : State) (d : Nat) : (s.elapse d).params = s.params := rfl
@[simp] theorem State.elapse_buf (s : State) (d : Nat) : (s.elapse d).buf = s.buf := rfl
@[simp] theorem State.elapse_devState (s : State) (d : Nat) : (s.elapse d).devState = s.devState := rfl
@[simp] theorem State.elapse_idleArmed (s : State) (d : Nat) : (s.elapse d).idleArmed = s.idleArmed := rfl
@[simp] theorem State.elapse_tickArmed (s : State) (d : Nat) : (s.elapse d).tickArmed = s.tickArmed := rfl
@[simp] theorem State.elapse_idleRem (s : State) (d : Nat) : (s.elapse d).idleRem = (if s.idleArmed then s.idleRem - d else s.idleRem) := rfl
@[simp] theorem State.elapse_tickRem (s : State) (d : Nat) : (s.elapse d).tickRem = (if s.tickArmed then s.tickRem - d else s.tickRem) := rfl
@[simp] theorem State.elapse_now (s : State) (d : Nat) : (s.elapse d).now = s.now + d := rfl
@[simp] theorem State.elapse_tx (s : State) (d : Nat) : (s.elapse d).tx = s.tx := rfl
@[simp] theorem State.elapse_timerCalls (s : State) (d : Nat) : (s.elapse d).timerCalls = s.timerCalls := rfl
@[simp] theorem State.elapse_log (s : State) (d : Nat) : (s.elapse d).log = s.log := rfl
@[simp] theorem State.elapse_codecOut (s : State) (d : Nat) : (s.elapse d).codecOut = s.codecOut := rfl
@[simp] theorem State.elapse_inbox (s : State) (d : Nat) : (s.elapse d).inbox = s.inbox := rfl

/-! `timerStart` -/
@[simp] theorem State.timerStart_params (s : State) (t : Timer) : (s.timerStart t).params = s.params := by cases t <;> rfl
@[simp] theorem State.timerStart_buf (s : State) (t : Timer) : (s.timerStart t).buf = s.buf := by cases t <;> rfl
@[simp] theorem State.timerStart_devState (s : State) (t : Timer) : (s.timerStart t).devState = s.devState := by cases t <;> rfl
@[simp] theorem State.timerStart_idle_idleArmed (s : State) : (s.timerStart .idle).idleArmed = true := rfl
@[simp] theorem State.timerStart_tick_idleArmed (s : State) : (s.timerStart .tick).idleArmed = s.idleArmed := rfl
@[simp] theorem State.timerStart_idle_tickArmed (s : State) : (s.timerStart .idle).tickArmed = s.tickArmed := rfl
@[simp] theorem State.timerStart_tick_tickArmed (s : State) : (s.timerStart .tick).tickArmed = true := rfl
@[simp] theorem State.timerStart_idle_idleRem (s : State) : (s.timerStart .idle).idleRem = s.params.idleMs := rfl
@[simp] theorem State.timerStart_tick_idleRem (s : State) : (s.timerStart .tick).idleRem = s.idleRem := rfl
@[simp] theorem State.timerStart_idle_tickRem (s : State) : (s.timerStart .idle).tickRem = s.tickRem := rfl
@[simp] theorem State.timerStart_tick_tickRem (s : State) : (s.timerStart .tick).tickRem = s.params.tickMs := rfl
@[simp] theorem State.timerStart_now (s : State) (t : Timer) : (s.timerStart t).now = s.now := by cases t <;> rfl
@[simp] theorem State.timerStart_tx (s : State) (t : Timer) : (s.timerStart t).tx = s.tx := by cases t <;> rfl
@[simp] theorem State.timerStart_timerCalls (s : State) (t : Timer) : (s.timerStart t).timerCalls = s.timerCalls ++ [.start t] := by
  cases t <;> rfl
@[simp] theorem State.timerStart_log (s : State) (t : Timer) : (s.timerStart t).log = s.log := by cases t <;> rfl
@[simp] theorem State.timerStart_codecOut (s : State) (t : Timer) : (s.timerStart t).codecOut = s.codecOut := by cases t <;> rfl
@[simp] theorem State.timerStart_inbox (s : State) (t : Timer) : (s.timerStart t).inbox = s.inbox := by cases t <;> rfl

/-! `timerStop` -/
@[simp] theorem State.timerStop_params (s : State) (t : Timer) : (s.timerStop t).params = s.params := by cases t <;> rfl
@[simp] theorem State.timerStop_buf (s : State) (t : Timer) : (s.timerStop t).buf = s.buf := by cases t <;> rfl
@[simp] theorem State.timerStop_devState (s : State) (t : Timer) : (s.timerStop t).devState = s.devState := by cases t <;> rfl
@[simp] theorem State.timerStop_idle_idleArmed (s : State) : (s.timerStop .idle).idleArmed = false := rfl
@[simp] theorem State.timerStop_tick_idleArmed (s : State) : (s.timerStop .tick).idleArmed = s.idleArmed := rfl
@[simp] theorem State.timerStop_idle_tickArmed (s : State) : (s.timerStop .idle).tickArmed = s.tickArmed := rfl
@[simp] theorem State.timerStop_tick_tickArmed (s : State) : (s.timerStop .tick).tickArmed = false := rfl
@[simp] theorem State.timerStop_idle_idleRem (s : State) : (s.timerStop .idle).idleRem = 0 := rfl
@[simp] theorem State.timerStop_tick_idleRem (s : State) : (s.timerStop .tick).idleRem = s.idleRem := rfl
@[simp] theorem State.timerStop_idle_tickRem (s : State) : (s.timerStop .idle).tickRem = s.tickRem := rfl
@[simp] theorem State.timerStop_tick_tickRem (s : State) : (s.timerStop .tick).tickRem = 0 := rfl
@[simp] theorem State.timerStop_now (s : State) (t : Timer) : (s.timerStop t).now = s.now := by cases t <;> rfl
@[simp] theorem State.timerStop_tx (s : State) (t : Timer) : (s.timerStop t).tx = s.tx := by cases t <;> rfl
@[simp] theorem State.timerStop_timerCalls (s : State) (t : Timer) : (s.timerStop t).timerCalls = s.timerCalls ++ [.stop t] := by
  cases t <;> rfl
@[simp] theorem State.timerStop_log (s : State) (t : Timer) : (s.timerStop t).log = s.log := by cases t <;> rfl
@[simp] theorem State.timerStop_codecOut (s : State) (t : Timer) : (s.timerStop t).codecOut = s.codecOut := by cases t <;> rfl
@[simp] theorem State.timerStop_inbox (s : State) (t : Timer) : (s.timerStop t).inbox = s.inbox := by cases t <;> rfl

end Sys2Proof.Machine
end

