-- ==== Sys2Proof/Laws/Ops.lean ====
section
/-!
SUPPORT. For each shared operation, what it can do, said once; proofs cite these and do not unfold the operation.
-/

namespace Sys2Proof.Machine

/-! The marker search (R82, R83). -/

theorem findSof_eq_none_iff (l : List Byte) : findSof l = none ↔ ∀ b ∈ l, b ≠ sofByte := by
  induction l with
  | nil => simp [findSof]
  | cons b bs ih => by_cases h : b = sofByte <;> simp [findSof, h, ih]

/-- The index found is the least one: a 0xA9 stands there and none before it. -/
theorem findSof_eq_some_iff (l : List Byte) (i : Nat) :
    findSof l = some i ↔ ∃ pre post, l = pre ++ sofByte :: post ∧ pre.length = i ∧ ∀ b ∈ pre, b ≠ sofByte := by
  induction l generalizing i with
  | nil => simp [findSof]
  | cons b bs ih =>
    by_cases h : b = sofByte
    · subst h
      constructor
      · intro hi
        exact ⟨[], bs, rfl, by simpa [findSof] using hi, by simp⟩
      · rintro ⟨pre, post, he, hl, hp⟩
        cases pre with
        | nil => simpa [findSof] using hl
        | cons c cs => exact absurd (List.cons.inj he).1.symm (hp c (by simp))
    · rw [findSof, if_neg h]
      constructor
      · intro hi
        obtain ⟨j, hj, rfl⟩ := Option.map_eq_some_iff.1 hi
        obtain ⟨pre, post, rfl, rfl, hp⟩ := (ih j).1 hj
        exact ⟨b :: pre, post, rfl, rfl, by simpa [h] using hp⟩
      · rintro ⟨pre, post, he, rfl, hp⟩
        cases pre with
        | nil => exact absurd (List.cons.inj he).1 h
        | cons c cs =>
          obtain ⟨rfl, rfl⟩ := List.cons.inj he
          rw [(ih cs.length).2 ⟨cs, post, rfl, rfl, fun x hx => hp x (by simp [hx])⟩]
          rfl

theorem findSof_append_marker (pre post : List Byte) (h : ∀ b ∈ pre, b ≠ sofByte) :
    findSof (pre ++ sofByte :: post) = some pre.length :=
  (findSof_eq_some_iff _ _).2 ⟨pre, post, rfl, rfl, h⟩

theorem garbageLog_nil (log : List LogEntry) : garbageLog log [] = log := rfl

/-- The discard removes the bytes and passes at most one log point (R83). -/
theorem State.discardFront_eq (s : State) (n : Nat) :
    s.discardFront n = { s with buf := s.buf.drop n, log := garbageLog s.log (s.buf.take n) } := by
  unfold State.discardFront garbageLog
  split
  · rename_i h
    have hd : s.buf.drop n = s.buf := by
      cases hb : s.buf with
      | nil => simp
      | cons x xs => cases n with
        | zero => simp
        | succ m => simp [hb] at h
    rw [hd]
  · rfl

/-- The whole of step 2: nothing but `BUF` and the log changes (R82, R83). -/
theorem State.markerSearch_eq (s : State) :
    s.markerSearch =
      match findSof s.buf with
      | none => { s with buf := [], log := garbageLog s.log s.buf }
      | some i => { s with buf := s.buf.drop i, log := garbageLog s.log (s.buf.take i) } := by
  cases h : findSof s.buf <;> simp [State.markerSearch, h, State.discardFront_eq]

/-! The idle-timer control (R87). -/

theorem State.idleControl_cases (s : State) :
    (s.buf = [] ∧ s.idleControl = s.timerStop .idle) ∨ (s.buf ≠ [] ∧ s.idleControl = s.timerStart .idle) := by
  unfold State.idleControl
  cases h : s.buf <;> simp

theorem State.idleControl_idleArmed (s : State) : s.idleControl.idleArmed = !s.buf.isEmpty := by
  rcases s.idleControl_cases with ⟨h, e⟩ | ⟨h, e⟩ <;> rw [e] <;> simp [h]

@[simp] theorem State.idleControl_buf (s : State) : s.idleControl.buf = s.buf := by
  rcases s.idleControl_cases with ⟨-, e⟩ | ⟨-, e⟩ <;> rw [e] <;> simp
@[simp] theorem State.idleControl_params (s : State) : s.idleControl.params = s.params := by
  rcases s.idleControl_cases with ⟨-, e⟩ | ⟨-, e⟩ <;> rw [e] <;> simp
@[simp] theorem State.idleControl_devState (s : State) : s.idleControl.devState = s.devState := by
  rcases s.idleControl_cases with ⟨-, e⟩ | ⟨-, e⟩ <;> rw [e] <;> simp
@[simp] theorem State.idleControl_tickArmed (s : State) : s.idleControl.tickArmed = s.tickArmed := by
  rcases s.idleControl_cases with ⟨-, e⟩ | ⟨-, e⟩ <;> rw [e] <;> simp
@[simp] theorem State.idleControl_tickRem (s : State) : s.idleControl.tickRem = s.tickRem := by
  rcases s.idleControl_cases with ⟨-, e⟩ | ⟨-, e⟩ <;> rw [e] <;> simp
@[simp] theorem State.idleControl_now (s : State) : s.idleControl.now = s.now := by
  rcases s.idleControl_cases with ⟨-, e⟩ | ⟨-, e⟩ <;> rw [e] <;> simp
@[simp] theorem State.idleControl_tx (s : State) : s.idleControl.tx = s.tx := by
  rcases s.idleControl_cases with ⟨-, e⟩ | ⟨-, e⟩ <;> rw [e] <;> simp
@[simp] theorem State.idleControl_log (s : State) : s.idleControl.log = s.log := by
  rcases s.idleControl_cases with ⟨-, e⟩ | ⟨-, e⟩ <;> rw [e] <;> simp
@[simp] theorem State.idleControl_codecOut (s : State) : s.idleControl.codecOut = s.codecOut := by
  rcases s.idleControl_cases with ⟨-, e⟩ | ⟨-, e⟩ <;> rw [e] <;> simp
@[simp] theorem State.idleControl_inbox (s : State) : s.idleControl.inbox = s.inbox := by
  rcases s.idleControl_cases with ⟨-, e⟩ | ⟨-, e⟩ <;> rw [e] <;> simp

/-! The dispatcher (R100). -/

/-- Everything `Dispatch(W)` can do. -/
theorem dispatch_cases (W : Frame) (s : State) :
    (matchFrame W = .statusQuery ∧ dispatch W s = s.txWrite (buildStatusResponse s.devState)) ∨
    ((matchFrame W = .powerOn ∨ matchFrame W = .powerOff) ∧ dispatch W s = s.timerStart .tick) ∨
    (matchFrame W = .unrecognized ∧ dispatch W s = s.trace (.unrecognized W)) := by
  unfold dispatch
  cases matchFrame W <;> simp [statusQuery, powerOn, powerOff, unrecognizedWindow]

@[simp] theorem dispatch_buf (W : Frame) (s : State) : (dispatch W s).buf = s.buf := by
  rcases dispatch_cases W s with ⟨-, e⟩ | ⟨-, e⟩ | ⟨-, e⟩ <;> rw [e] <;> simp
@[simp] theorem dispatch_params (W : Frame) (s : State) : (dispatch W s).params = s.params := by
  rcases dispatch_cases W s with ⟨-, e⟩ | ⟨-, e⟩ | ⟨-, e⟩ <;> rw [e] <;> simp
@[simp] theorem dispatch_devState (W : Frame) (s : State) : (dispatch W s).devState = s.devState := by
  rcases dispatch_cases W s with ⟨-, e⟩ | ⟨-, e⟩ | ⟨-, e⟩ <;> rw [e] <;> simp
@[simp] theorem dispatch_idleArmed (W : Frame) (s : State) : (dispatch W s).idleArmed = s.idleArmed := by
  rcases dispatch_cases W s with ⟨-, e⟩ | ⟨-, e⟩ | ⟨-, e⟩ <;> rw [e] <;> simp
@[simp] theorem dispatch_idleRem (W : Frame) (s : State) : (dispatch W s).idleRem = s.idleRem := by
  rcases dispatch_cases W s with ⟨-, e⟩ | ⟨-, e⟩ | ⟨-, e⟩ <;> rw [e] <;> simp
@[simp] theorem dispatch_now (W : Frame) (s : State) : (dispatch W s).now = s.now := by
  rcases dispatch_cases W s with ⟨-, e⟩ | ⟨-, e⟩ | ⟨-, e⟩ <;> rw [e] <;> simp
@[simp] theorem dispatch_codecOut (W : Frame) (s : State) : (dispatch W s).codecOut = s.codecOut := by
  rcases dispatch_cases W s with ⟨-, e⟩ | ⟨-, e⟩ | ⟨-, e⟩ <;> rw [e] <;> simp
@[simp] theorem dispatch_inbox (W : Frame) (s : State) : (dispatch W s).inbox = s.inbox := by
  rcases dispatch_cases W s with ⟨-, e⟩ | ⟨-, e⟩ | ⟨-, e⟩ <;> rw [e] <;> simp

/-- The dispatch never reads or writes `BUF`, so it commutes with any write of it (R86, R100). -/
theorem dispatch_with_buf (W : Frame) (s : State) (l : List Byte) :
    dispatch W { s with buf := l } = { dispatch W s with buf := l } := by
  unfold dispatch
  cases matchFrame W <;> rfl

/-! The framing loop (R84 to R86). -/

/-- The loop goes on exactly while eight bytes are there. -/
theorem frontWindow_eq_none_iff (l : List Byte) : frontWindow l = none ↔ l.length < 8 := by
  rcases l with _ | ⟨_, _ | ⟨_, _ | ⟨_, _ | ⟨_, _ | ⟨_, _ | ⟨_, _ | ⟨_, _ | ⟨_, _⟩⟩⟩⟩⟩⟩⟩⟩ <;>
    simp [frontWindow]

/-- What the loop never touches. -/
theorem framingLoop_frame (n : Nat) (s : State) :
    (framingLoop n s).devState = s.devState ∧ (framingLoop n s).idleArmed = s.idleArmed ∧
    (framingLoop n s).idleRem = s.idleRem ∧ (framingLoop n s).now = s.now ∧
    (framingLoop n s).codecOut = s.codecOut ∧ (framingLoop n s).inbox = s.inbox ∧
    (framingLoop n s).params = s.params := by
  induction n generalizing s with
  | zero => simp [framingLoop]
  | succ n ih =>
    rw [framingLoop]
    split
    · simp
    · rename_i W _
      obtain ⟨h1, h2, h3, h4, h5, h6, h7⟩ := ih ((dispatch W s).dropFront frameLen)
      simp [h1, h2, h3, h4, h5, h6, h7]

/-! The table of TICK (R110 to R116). -/

/-- Everything a row of the table can do. -/
theorem tickRow_cases (c : StateCode) (s : State) :
    (∃ d, (c = 0x00#8 ∧ d = 0x01#8 ∨ c = 0x01#8 ∧ d = 0x02#8 ∨ c = 0x03#8 ∧ d = 0x04#8 ∨ c = 0x04#8 ∧ d = 0x05#8) ∧
      tickRow c s = (s.setDevState d).tickContinue) ∨
    (c = 0x02#8 ∧ tickRow c s = (s.setDevState 0x03#8).timerStop .tick) ∨
    (c ≠ 0x00#8 ∧ c ≠ 0x01#8 ∧ c ≠ 0x02#8 ∧ c ≠ 0x03#8 ∧ c ≠ 0x04#8 ∧
      tickRow c s = (s.setDevState 0x00#8).timerStop .tick) := by
  by_cases h0 : c = 0x00#8
  · exact .inl ⟨0x01#8, by simp [h0], by subst h0; rfl⟩
  by_cases h1 : c = 0x01#8
  · exact .inl ⟨0x02#8, by simp [h1], by subst h1; rfl⟩
  by_cases h2 : c = 0x02#8
  · exact .inr (.inl ⟨h2, by subst h2; rfl⟩)
  by_cases h3 : c = 0x03#8
  · exact .inl ⟨0x04#8, by simp [h3], by subst h3; rfl⟩
  by_cases h4 : c = 0x04#8
  · exact .inl ⟨0x05#8, by simp [h4], by subst h4; rfl⟩
  · refine .inr (.inr ⟨h0, h1, h2, h3, h4, ?_⟩)
    simp [tickRow, DeviceState.code, h0, h1, h2, h3, h4, tickDefault]

end Sys2Proof.Machine
end

