-- ==== Sys2Proof/Laws/Framing.lean ====
section
/-!
SUPPORT. Lemmas about cutting windows and about dispatching a list of them (`41_framing.md` R84 to R89, R107).
-/

namespace Sys2Proof.Machine

/-! Cutting windows. -/

theorem windowsOf_eq_nil_iff (l : List Byte) : windowsOf l = [] ↔ l.length < 8 := by
  rcases l with _ | ⟨_, _ | ⟨_, _ | ⟨_, _ | ⟨_, _ | ⟨_, _ | ⟨_, _ | ⟨_, _ | ⟨_, l⟩⟩⟩⟩⟩⟩⟩⟩ <;> simp [windowsOf]

theorem leftOver_of_short (l : List Byte) (h : l.length < 8) : leftOver l = l := by
  simp [leftOver, Nat.div_eq_of_lt h]

theorem leftOver_length (l : List Byte) : (leftOver l).length = l.length % 8 := by
  simp [leftOver]
  omega

/-- One window at the front: the closed form of cutting goes on behind it. -/
theorem frontWindow_some (l : List Byte) (W : Frame) (h : frontWindow l = some W) :
    8 ≤ l.length ∧ windowsOf l = W :: windowsOf (l.drop 8) ∧ leftOver l = leftOver (l.drop 8) := by
  rcases l with _ | ⟨_, _ | ⟨_, _ | ⟨_, _ | ⟨_, _ | ⟨_, _ | ⟨_, _ | ⟨_, _ | ⟨_, l⟩⟩⟩⟩⟩⟩⟩⟩ <;>
    simp [frontWindow] at h
  subst h
  refine ⟨by simp, rfl, ?_⟩
  have hl : (l.length + 1 + 1 + 1 + 1 + 1 + 1 + 1 + 1) / 8 = l.length / 8 + 1 := by omega
  simp only [leftOver, List.length_cons, List.drop_succ_cons, List.drop_zero, hl, Nat.mul_succ]

/-! Dispatching a list of windows. -/

@[simp] theorem dispatchAll_nil (s : State) : dispatchAll [] s = s := rfl

@[simp] theorem dispatchAll_cons (W : Frame) (Ws : List Frame) (s : State) :
    dispatchAll (W :: Ws) s = dispatchAll Ws (dispatch W s) := rfl

theorem dispatchAll_with_buf (Ws : List Frame) (s : State) (l : List Byte) :
    dispatchAll Ws { s with buf := l } = { dispatchAll Ws s with buf := l } := by
  induction Ws generalizing s with
  | nil => rfl
  | cons W Ws ih => rw [dispatchAll_cons, dispatch_with_buf, ih, dispatchAll_cons]

@[simp] theorem dispatchAll_buf (Ws : List Frame) (s : State) : (dispatchAll Ws s).buf = s.buf := by
  induction Ws generalizing s with
  | nil => rfl
  | cons W Ws ih => simp [ih]
@[simp] theorem dispatchAll_params (Ws : List Frame) (s : State) : (dispatchAll Ws s).params = s.params := by
  induction Ws generalizing s with
  | nil => rfl
  | cons W Ws ih => simp [ih]
@[simp] theorem dispatchAll_devState (Ws : List Frame) (s : State) :
    (dispatchAll Ws s).devState = s.devState := by
  induction Ws generalizing s with
  | nil => rfl
  | cons W Ws ih => simp [ih]
@[simp] theorem dispatchAll_idleArmed (Ws : List Frame) (s : State) :
    (dispatchAll Ws s).idleArmed = s.idleArmed := by
  induction Ws generalizing s with
  | nil => rfl
  | cons W Ws ih => simp [ih]
@[simp] theorem dispatchAll_idleRem (Ws : List Frame) (s : State) :
    (dispatchAll Ws s).idleRem = s.idleRem := by
  induction Ws generalizing s with
  | nil => rfl
  | cons W Ws ih => simp [ih]
@[simp] theorem dispatchAll_now (Ws : List Frame) (s : State) : (dispatchAll Ws s).now = s.now := by
  induction Ws generalizing s with
  | nil => rfl
  | cons W Ws ih => simp [ih]
@[simp] theorem dispatchAll_codecOut (Ws : List Frame) (s : State) :
    (dispatchAll Ws s).codecOut = s.codecOut := by
  induction Ws generalizing s with
  | nil => rfl
  | cons W Ws ih => simp [ih]
@[simp] theorem dispatchAll_inbox (Ws : List Frame) (s : State) :
    (dispatchAll Ws s).inbox = s.inbox := by
  induction Ws generalizing s with
  | nil => rfl
  | cons W Ws ih => simp [ih]

/-- One window, by what its verdict says it is. -/
theorem dispatch_kinds (W : Frame) (s : State) :
    (dispatch W s).tickArmed = (s.tickArmed || isPowerWindow W) ∧
    (dispatch W s).tickRem = (if isPowerWindow W then s.params.tickMs else s.tickRem) ∧
    (dispatch W s).tx = s.tx ++ (if isQueryWindow W then [buildStatusResponse s.devState] else []) := by
  unfold dispatch isPowerWindow isQueryWindow
  cases matchFrame W <;> simp [statusQuery, powerOn, powerOff, unrecognizedWindow]

end Sys2Proof.Machine
end

