-- ==== Sys2Proof/Laws/PerInstr.lean ====
section
/-!
SUPPORT. Families of facts about every instruction, one lemma per constructor. `EncodeWidth`: the encoding of a row with
bits has exactly the bytes that the table's width gives it, and of an event or Codec row the bytes of its argument.
-/

namespace Sys2Proof.Laws

/-- The bytes of an instruction of a format: the width of the format's rows in the table, or, for the two rows whose
argument has bytes of its own, that argument's. -/
def formatBytes : Instr → Format → Nat
  | _, .frameRx => 8
  | _, .frameTx => 8
  | _, .byteScan => 1
  | _, .tick => 1
  | .rx chunk, .eventRx => chunk.length
  | _, .codecOpBuildPwr => 1
  | _, .codecOpMatch => 8
  | _, _ => 0

def EncodeWidth.Statement (i : Instr) : Prop := (encode i).2.length = formatBytes i (encode i).1

theorem EncodeWidth.statusQuery : EncodeWidth.Statement .statusQuery := rfl
theorem EncodeWidth.powerOn : EncodeWidth.Statement .powerOn := rfl
theorem EncodeWidth.powerOff : EncodeWidth.Statement .powerOff := rfl
theorem EncodeWidth.unrecognized (window : Frame) : EncodeWidth.Statement (.unrecognized window) := rfl
theorem EncodeWidth.statusResponse (ss cc : Byte) : EncodeWidth.Statement (.statusResponse ss cc) := rfl
theorem EncodeWidth.sof : EncodeWidth.Statement .sof := rfl
theorem EncodeWidth.garbageByte (byte : Byte) : EncodeWidth.Statement (.garbageByte byte) := rfl
theorem EncodeWidth.tickStandby : EncodeWidth.Statement .tickStandby := rfl
theorem EncodeWidth.tickStartup : EncodeWidth.Statement .tickStartup := rfl
theorem EncodeWidth.tickStartuplamp : EncodeWidth.Statement .tickStartuplamp := rfl
theorem EncodeWidth.tickPoweron : EncodeWidth.Statement .tickPoweron := rfl
theorem EncodeWidth.tickCooling1 : EncodeWidth.Statement .tickCooling1 := rfl
theorem EncodeWidth.tickDefault (state : StateCode) : EncodeWidth.Statement (.tickDefault state) := rfl
theorem EncodeWidth.rx (chunk : List Byte) : EncodeWidth.Statement (.rx chunk) := rfl
theorem EncodeWidth.idleTimeout : EncodeWidth.Statement .idleTimeout := rfl
theorem EncodeWidth.tick : EncodeWidth.Statement .tick := rfl
theorem EncodeWidth.reset : EncodeWidth.Statement .reset := rfl
theorem EncodeWidth.buildStatusQuery : EncodeWidth.Statement .buildStatusQuery := rfl
theorem EncodeWidth.buildPowerCommand (on : Bool) : EncodeWidth.Statement (.buildPowerCommand on) := rfl
theorem EncodeWidth.matchFrame (window : Frame) : EncodeWidth.Statement (.matchFrame window) := rfl

end Sys2Proof.Laws
end

