-- ==== Sys2Proof/Tests/Slice0.lean ====
section
/-!
SUPPORT. Tests on fixed values. The expected results are the spec's: words from the encodings of `30_encoding.md`, results
from the worked examples and vectors of `95_test_vectors.md` (their ids stand in the docstrings). The second half
shows, for each obligation with hypotheses, values that meet them together.
-/

namespace Sys2Proof.Tests

open Sys2Proof Sys2Proof.Machine

/-- A state between events: the four items, the counters full where their timer is armed, the rest as after reset. -/
def between (buf : List Byte) (c : StateCode) (tickArmed : Bool) : State :=
  { State.reset with
    buf := buf, devState := c, tickArmed := tickArmed, tickRem := if tickArmed then 1000 else 0,
    idleArmed := !buf.isEmpty, idleRem := if buf.isEmpty then 0 else 3000 }

/-- The state after an instruction. -/
def after (i : Instr) (s : State) : Option State :=
  match exec i s with
  | .next t => some t
  | .fault _ => none
  | .refused _ => none

/-- The state after a step. -/
def stepped (s : State) : Option State :=
  match step s with
  | .next t => some t
  | .fault _ => none
  | .refused _ => none

/-- The template `SQ` of R52. -/
def sq : List Byte := [0xA9#8, 0x01#8, 0x02#8, 0x01#8, 0x00#8, 0x00#8, 0x03#8, 0x9A#8]

/-- The template `PON` of R53. -/
def pon : List Byte := [0xA9#8, 0x17#8, 0x2E#8, 0x00#8, 0x00#8, 0x00#8, 0x3F#8, 0x9A#8]

/-- The template `POFF` of R54. -/
def poff : List Byte := [0xA9#8, 0x17#8, 0x2F#8, 0x00#8, 0x00#8, 0x00#8, 0x3F#8, 0x9A#8]

/-- An unknown frame and a stray byte, the first nine bytes of R91's example. -/
def stray : List Byte := [0xA9#8, 0x00#8, 0x00#8, 0x00#8, 0x00#8, 0x00#8, 0x00#8, 0x00#8, 0x00#8]

/-! ### Well-formedness refuses -/

theorem test_wf_refuses_template_as_unrecognized :
    (Instr.unrecognized ⟨0xA9#8, 0x17#8, 0x2E#8, 0x00#8, 0x00#8, 0x00#8, 0x3F#8, 0x9A#8⟩).wellFormed Params.source = false := by decide
theorem test_wf_refuses_wrong_byte_six : (Instr.statusResponse 0x00#8 0x00#8).wellFormed Params.source = false := by decide
theorem test_wf_refuses_marker_as_garbage : (Instr.garbageByte 0xA9#8).wellFormed Params.source = false := by decide
theorem test_wf_refuses_listed_state_as_default : (Instr.tickDefault 0x04#8).wellFormed Params.source = false := by decide
theorem test_wf_refuses_chunk_over_bound :
    (Instr.rx [0#8, 0#8, 0#8, 0#8]).wellFormed { Params.source with maxChunk := some 3 } = false := by decide
theorem test_wf_takes_the_edges :
    (Instr.tickDefault 0x05#8).wellFormed Params.source = true ∧ (Instr.statusResponse 0x04#8 0x07#8).wellFormed Params.source = true ∧
    (Instr.rx [0#8, 0#8, 0#8]).wellFormed { Params.source with maxChunk := some 3 } = true := by decide

/-! ### Decoding: words written out from `30_encoding.md` -/

theorem test_decode_statusQuery : decodeTableWord 64 0xA90102010000039A = some .statusQuery := by decide
theorem test_decode_powerOn : decodeTableWord 64 0xA9172E0000003F9A = some .powerOn := by decide
theorem test_decode_powerOff : decodeTableWord 64 0xA9172F0000003F9A = some .powerOff := by decide
theorem test_decode_unrecognized :
    decodeTableWord 64 0xA9173000000F3F9A =
      some (.unrecognized ⟨0xA9#8, 0x17#8, 0x30#8, 0x00#8, 0x00#8, 0x0F#8, 0x3F#8, 0x9A#8⟩) := by decide
theorem test_decode_statusResponse :
    decodeTableWord 64 0xA90102020004079A = some (.statusResponse 0x04#8 0x07#8) := by decide
theorem test_decode_sof : decodeTableWord 8 0xA9 = some .sof := by decide
theorem test_decode_garbageByte : decodeTableWord 8 0x9A = some (.garbageByte 0x9A#8) := by decide
theorem test_decode_tickStandby : decodeTableWord 8 0x00 = some .tickStandby := by decide
theorem test_decode_tickStartup : decodeTableWord 8 0x01 = some .tickStartup := by decide
theorem test_decode_tickStartuplamp : decodeTableWord 8 0x02 = some .tickStartuplamp := by decide
theorem test_decode_tickPoweron : decodeTableWord 8 0x03 = some .tickPoweron := by decide
theorem test_decode_tickCooling1 : decodeTableWord 8 0x04 = some .tickCooling1 := by decide
theorem test_decode_tickDefault : decodeTableWord 8 0x05 = some (.tickDefault 0x05#8) := by decide
theorem test_decode_high_state : decode? .tick [0xFF#8] = some (.tickDefault 0xFF#8) := by decide
theorem test_decode_low_garbage : decode? .byteScan [0x00#8] = some (.garbageByte 0x00#8) := by decide
theorem test_decode_rx : decode? .eventRx [0xFF#8, 0xA9#8] = some (.rx [0xFF#8, 0xA9#8]) := by decide
theorem test_decode_idleTimeout : decode? .eventIdleTimeout [] = some .idleTimeout := by decide
theorem test_decode_tick : decode? .eventTick [] = some .tick := by decide
theorem test_decode_reset : decode? .eventReset [] = some .reset := by decide
theorem test_decode_buildStatusQuery : decode? .codecOpBuildSq [] = some .buildStatusQuery := by decide
theorem test_decode_buildPowerCommand : decode? .codecOpBuildPwr [0x01#8] = some (.buildPowerCommand true) := by decide
theorem test_decode_matchFrame :
    decode? .codecOpMatch poff =
      some (.matchFrame ⟨0xA9#8, 0x17#8, 0x2F#8, 0x00#8, 0x00#8, 0x00#8, 0x3F#8, 0x9A#8⟩) := by decide
theorem test_decode_rejects :
    decode .frameRx [0xA9#8] = .error (.wrongLength .frameRx 1) ∧
    decode .frameTx sq = .error (.noRow .frameTx) ∧
    decode .codecOpBuildPwr [0x02#8] = .error .notABoolean ∧ decodeTableWord 0 0 = none := by decide

/-! ### Steps -/

/-- S2: a status query in Cooling1. -/
theorem test_statusQuery_cooling1 :
    (after .statusQuery (between [] 0x04#8 true)).map State.tx =
      some [⟨0xA9#8, 0x01#8, 0x02#8, 0x02#8, 0x00#8, 0x04#8, 0x07#8, 0x9A#8⟩] := by decide
/-- D2. -/
theorem test_powerOn_arms : (after .powerOn State.reset).map State.arch = some ⟨[], 0x00#8, false, true⟩ := by decide
/-- D5: a power command while the timer runs restarts the period. -/
theorem test_powerOff_restarts :
    (after .powerOff { between [] 0x01#8 true with tickRem := 400 }).map State.tickRem = some 1000 := by decide
/-- D6. -/
theorem test_unrecognized :
    (after (.unrecognized ⟨0xA9#8, 0x17#8, 0x30#8, 0#8, 0#8, 0#8, 0x3F#8, 0x9A#8⟩) State.reset).map State.arch =
      some State.reset.arch := by decide
/-- R72, the corner `s = 0xFF`. -/
theorem test_statusResponse :
    (after (.statusResponse 0xFF#8 0xFF#8) State.reset).map State.codecOut =
      some (some (.frame ⟨0xA9#8, 0x01#8, 0x02#8, 0x02#8, 0x00#8, 0xFF#8, 0xFF#8, 0x9A#8⟩)) := by decide
theorem test_sof : (after .sof (between [0xA9#8] 0#8 false)).map State.buf = some [0xA9#8] := by decide
theorem test_garbageByte :
    (after (.garbageByte 0x00#8) (between [0x00#8, 0xA9#8, 0x01#8] 0#8 false)).map State.buf =
      some [0xA9#8, 0x01#8] := by decide
/-- Table 2.5, the six rows. -/
theorem test_tickStandby : (after .tickStandby (between [] 0#8 true)).map State.arch = some ⟨[], 1#8, false, true⟩ := by
  decide
theorem test_tickStartup : (after .tickStartup (between [] 1#8 true)).map State.arch = some ⟨[], 2#8, false, true⟩ := by
  decide
theorem test_tickStartuplamp :
    (after .tickStartuplamp (between [] 2#8 true)).map State.arch = some ⟨[], 3#8, false, false⟩ := by decide
theorem test_tickPoweron : (after .tickPoweron (between [] 3#8 true)).map State.arch = some ⟨[], 4#8, false, true⟩ := by
  decide
theorem test_tickCooling1 : (after .tickCooling1 (between [] 4#8 true)).map State.arch = some ⟨[], 5#8, false, true⟩ := by
  decide
theorem test_tickDefault :
    (after (.tickDefault 8#8) (between [] 8#8 true)).map State.arch = some ⟨[], 0#8, false, false⟩ := by decide
/-- Table 2.5 through the event: the last listed code, the first default one, a high one, and the flag at 0. -/
theorem test_tick_rows :
    (after .tick (between [] 0x04#8 true)).map State.devState = some 0x05#8 ∧
    (after .tick (between [] 0x05#8 true)).map State.arch = some ⟨[], 0#8, false, false⟩ ∧
    (after .tick (between [] 0xFF#8 true)).map State.arch = some ⟨[], 0#8, false, false⟩ ∧
    after .tick (between [] 0x02#8 false) = some (between [] 0x02#8 false) := by decide
/-- I4 and I2. -/
theorem test_idleTimeout :
    (after .idleTimeout (between [0xA9#8, 0x01#8] 1#8 true)).map State.arch = some ⟨[], 1#8, false, true⟩ ∧
    after .idleTimeout State.reset = some State.reset := by decide
theorem test_reset :
    (after .reset { between [0xA9#8] 3#8 true with tx := [buildStatusQuery] }).map State.arch = some State.reset.arch ∧
    (after .reset { between [0xA9#8] 3#8 true with tx := [buildStatusQuery] }).map State.tx = some [] := by decide
theorem test_buildStatusQuery :
    (after .buildStatusQuery State.reset).map State.codecOut =
      some (some (.frame ⟨0xA9#8, 0x01#8, 0x02#8, 0x01#8, 0x00#8, 0x00#8, 0x03#8, 0x9A#8⟩)) := by decide
theorem test_buildPowerCommand :
    (after (.buildPowerCommand false) State.reset).map State.codecOut =
      some (some (.frame ⟨0xA9#8, 0x17#8, 0x2F#8, 0x00#8, 0x00#8, 0x00#8, 0x3F#8, 0x9A#8⟩)) := by decide
/-- R73's two examples: a wrong end marker is unrecognised. -/
theorem test_matchFrame :
    (after (.matchFrame ⟨0xA9#8, 0x17#8, 0x2F#8, 0#8, 0#8, 0#8, 0x3F#8, 0x9A#8⟩) State.reset).map State.codecOut =
      some (some (.verdict .powerOff)) ∧
    (after (.matchFrame ⟨0xA9#8, 0x17#8, 0x2F#8, 0#8, 0#8, 0#8, 0x3F#8, 0x9B#8⟩) State.reset).map State.codecOut =
      some (some (.verdict .unrecognized)) := by decide

/-- S4: the second event of the fragmented query; and F7. -/
theorem test_rx_fragments :
    (after (.rx [0x01#8, 0x02#8, 0x01#8, 0x00#8, 0x00#8, 0x03#8, 0x9A#8]) (between [0xA9#8] 0#8 false)).map State.tx =
      some [buildStatusResponse 0#8] ∧
    (after (.rx (sq ++ pon ++ [0xA9#8, 0x17#8])) State.reset).map State.arch =
      some ⟨[0xA9#8, 0x17#8], 0#8, true, true⟩ := by decide
/-- F8, R91: no new search inside an event; the query is lost, 0x9A stays, two windows are logged. -/
theorem test_rx_no_resynchronisation :
    (after (.rx (stray ++ sq)) State.reset).map State.arch = some ⟨[0x9A#8], 0#8, true, false⟩ ∧
    (after (.rx (stray ++ sq)) State.reset).map State.tx = some [] ∧
    (after (.rx (stray ++ sq)) State.reset).map State.log =
      some [.unrecognized ⟨0xA9#8, 0#8, 0#8, 0#8, 0#8, 0#8, 0#8, 0#8⟩,
        .unrecognized ⟨0x00#8, 0xA9#8, 0x01#8, 0x02#8, 0x01#8, 0x00#8, 0x00#8, 0x03#8⟩] := by decide
/-- F12, the second event: a left-over 0xA9 costs the following frame. -/
theorem test_rx_leftover_marker :
    (after (.rx sq) (between [0xA9#8, 0x00#8] 0#8 false)).map State.arch = some ⟨[0x03#8, 0x9A#8], 0#8, true, false⟩ := by
  decide
/-- F10, F10b: an empty chunk drops a misaligned byte, and keeps an aligned partial frame and restarts the timer. -/
theorem test_rx_empty_chunk :
    (after (.rx []) (between [0x00#8] 0#8 false)).map State.arch = some State.reset.arch ∧
    (after (.rx []) { between [0xA9#8, 0x01#8] 0#8 false with idleRem := 7 }).map State.idleRem = some 3000 := by decide
/-- D8: a power command between two queries changes neither answer. -/
theorem test_rx_several_commands :
    (after (.rx (sq ++ pon ++ sq)) State.reset).map State.tx = some [buildStatusResponse 0#8, buildStatusResponse 0#8] := by
  decide

/-- A step takes one event, the oldest. -/
theorem test_step_takes_one :
    (stepped { between [] 3#8 true with inbox := [.tick, .rx sq] }).map State.inbox = some [.rx sq] ∧
    stepped State.reset = some State.reset := by decide
/-- The staged query word is answered by the next step from reset. -/
theorem test_fetch_statusQuery :
    (stepped (State.reset.withFetchWord 64 0xA90102010000039A)).map State.tx = some [buildStatusResponse 0#8] := by decide
/-- T1 at t = 600 and T3 at t = 500: a power command restarts the tick count, another `RX` does not. -/
theorem test_timed_restart :
    (timedRun [.event (.rx pon), .elapse 600, .event (.rx pon)] State.reset).map State.tickRem = some 1000 ∧
    (timedRun [.event (.rx pon), .elapse 500, .event (.rx [0xA9#8, 0x01#8])] State.reset).map
      (fun s => (s.tickRem, s.idleRem)) = some (500, 3000) ∧
    timedRun [.event (.rx pon), .elapse 1001] State.reset = none := by decide

/-! ### Values that meet the hypotheses of the obligations -/

/-- A state with bytes held, both timers running, a response written and three events to come. -/
def busy : State :=
  { between [0xA9#8, 0x01#8] 0x01#8 true with
    tx := [buildStatusResponse 0x00#8], inbox := [.tick, .rx sq, .idleTimeout] }

theorem busy_inv : busy.Inv where
  bufShort := by decide
  idleIffBytes := by decide
  codeSmall := by decide
  restsWhereStopped := by decide
  onlyResponses := fun F hF => ⟨0x00#8, by decide, by
    have : F = buildStatusResponse 0x00#8 := by simpa [busy] using hF
    exact this⟩
  idleCounter := by decide
  tickCounter := by decide

/-- `StepKeepsTheInvariant`. -/
theorem witness_stepKeepsTheInvariant : ∃ s t : State, s.Inv ∧ step s = .next t ∧ t.devState = 0x02#8 :=
  ⟨busy, _, busy_inv, rfl, rfl⟩

/-- `ChunkBoundaryIndependenceUnrestricted`: its hypotheses are met by vectors F8 and F8b, and its conclusion fails there. -/
theorem witness_chunkBoundary_unrestricted : ∃ u v w : State,
    exec (.rx stray) State.reset = .next u ∧ exec (.rx sq) u = .next v ∧
    exec (.rx (stray ++ sq)) State.reset = .next w ∧ v.buf = [] ∧ w.buf = [0x9A#8] :=
  ⟨_, _, _, rfl, rfl, rfl, by decide, by decide⟩

/-- `TracesRecordTheTransactions`, each clause. -/
theorem witness_traces :
    (∃ t, exec (.unrecognized ⟨0#8, 0#8, 0#8, 0#8, 0#8, 0#8, 0#8, 0#8⟩) State.reset = .next t) ∧
    (∃ t, exec .powerOn State.reset = .next t) ∧ (∃ t, exec .powerOff busy = .next t) ∧
    (∃ t, exec .tickStartuplamp busy = .next t) ∧ (∃ t, exec (.tickDefault 0x05#8) busy = .next t) ∧
    (∃ t, exec .idleTimeout busy = .next t) :=
  ⟨⟨_, rfl⟩, ⟨_, rfl⟩, ⟨_, rfl⟩, ⟨_, rfl⟩, ⟨_, rfl⟩, ⟨_, rfl⟩⟩

/-- `ChecksumByteIsTheOrOfThePayload`, the extreme code. -/
theorem witness_checksum : ∃ F : Frame, F = buildStatusResponse 0xFF#8 ∧ F.b6 = 0xFF#8 := ⟨_, rfl, by decide⟩

/-- `TickRowsFollowTheTable`: an armed timer in each listed state and in the first unlisted one. -/
theorem witness_tickRows :
    [0#8, 1#8, 2#8, 3#8, 4#8, 5#8].all (fun c => (between [] c true).tickArmed && (between [] c true).devState == c) = true ∧
    4 < (between [] 5#8 true).devState.toNat := by decide

/-- `TickRunsTheRowOfState`, `TickNextStateFunction`: both values of the flag, and the codes on both sides of the bound. -/
theorem witness_tick :
    (between [] 0x04#8 true).tickArmed = true ∧ (between [] 0x05#8 true).tickArmed = true ∧
    (between [] 0xFF#8 false).tickArmed = false := by decide

/-- `ThreeTicksReachTheOtherRestingPoint`, both resting points. -/
theorem witness_threeTicks :
    (∃ s : State, s.tickArmed = true ∧ s.devState = 0x00#8 ∧ s.inbox = [.tick, .tick, .tick, .tick]) ∧
    (∃ s : State, s.tickArmed = true ∧ s.devState = 0x03#8 ∧ s.inbox = [.tick, .tick, .tick, .tick, .reset]) :=
  ⟨⟨{ between [] 0#8 true with inbox := [.tick, .tick, .tick, .tick] }, by decide⟩,
   ⟨{ between [] 3#8 true with inbox := [.tick, .tick, .tick, .tick, .reset] }, by decide⟩⟩

/-- `UnknownCodeTakesTheDefaultRow`: the sentinel has the code, whatever it is. -/
theorem witness_unknownCode : DeviceState.unknown.code = unknownCode := rfl

/-- `IdleTimeoutClearsTheBuffer`, `LateRemainderIsDropped`: a partial frame held, and the rest of it with no 0xA9 (I1). -/
theorem witness_idleTimeout :
    (between [0xA9#8, 0x01#8, 0x02#8] 0#8 false).idleArmed = true ∧ State.reset.idleArmed = false ∧
    ∀ b ∈ [0x01#8, 0x00#8, 0x00#8, 0x03#8, 0x9A#8], b ≠ 0xA9#8 := by decide

/-- `ByteScanRows`: a garbage byte at the front, another byte there, and none. -/
theorem witness_byteScan :
    (between [0x00#8, 0xA9#8] 0#8 false).buf = 0x00#8 :: [0xA9#8] ∧
    (between [0x00#8, 0xA9#8] 0#8 false).buf.head? ≠ some 0x01#8 ∧ State.reset.buf.head? ≠ some 0x00#8 := by decide

/-- `MarkerSearchIsTheRunOfScannedBytes`: with and without a marker, and with nothing before it. -/
theorem witness_markerSearch :
    (∀ b ∈ [0xFF#8, 0xFF#8], b ≠ 0xA9#8) ∧
    (between [0xFF#8, 0xFF#8, 0xA9#8] 0#8 false).buf = [0xFF#8, 0xFF#8] ++ 0xA9#8 :: [] ∧
    (between [0xA9#8] 0#8 false).buf = [] ++ 0xA9#8 :: [] ∧
    (between [0xFF#8, 0xFF#8] 0#8 false).buf = [0xFF#8, 0xFF#8] := by decide

/-- `FramingLoopRoundsAndLeftOver`: with 17 bytes (R84's example), the round counts meet at 2. -/
theorem witness_framingLoop :
    (between (sq ++ pon ++ [0xA9#8]) 0#8 false).buf.length / 8 = 2 ∧
    (framingLoop 2 (between (sq ++ pon ++ [0xA9#8]) 0#8 false)).buf = [0xA9#8] := by decide

/-- `BufferBetweenEvents`, each clause: 7 bytes held, a chunk with no window, and a left-over that begins otherwise. -/
theorem witness_bufferBetweenEvents :
    (∃ t, (between (sq.take 7) 0#8 false).buf.length = 7 ∧
      exec (Input.rx [0x9A#8]).toInstr (between (sq.take 7) 0#8 false) = .next t) ∧
    dispatchedWindows State.reset [0xFF#8, 0xA9#8] = [] ∧ dispatchedWindows State.reset [0x00#8] = [] ∧
    (sq.drop 1).length = 7 :=
  ⟨⟨_, by decide, rfl⟩, by decide, by decide, by decide⟩

/-- `RegisterViewOfTheBuffer`, `EmptyChunkSearchesAgain`: the lengths 0 and 7, the search with and without a result. -/
theorem witness_emptyChunk :
    State.reset.buf.length = 0 ∧ (between (sq.take 7) 0#8 false).buf.length = 7 ∧ findSof State.reset.buf = none ∧
    findSof (between [0x00#8, 0xA9#8] 0#8 false).buf = some 1 ∧ findSof (between [0xA9#8] 0#8 false).buf = some 0 := by
  decide

/-- `GarbageChunks` (F5, F6 and the chunk that completes a window): the three shapes. -/
theorem witness_garbageChunks :
    (∀ b ∈ State.reset.buf ++ [0x00#8, 0x11#8, 0x22#8], b ≠ 0xA9#8) ∧
    (between [0xA9#8, 0x01#8] 0#8 false).buf.head? = some 0xA9#8 ∧
    ((between [0xA9#8, 0x01#8] 0#8 false).buf ++ [0xFF#8]).length < 8 ∧
    ¬ ((between (sq.take 7) 0#8 false).buf ++ [0x9A#8]).length < 8 := by decide

/-- `ChunkBoundaryIndependenceRestricted`: each disjunct of the condition. -/
theorem witness_chunkBoundary_restricted :
    (∀ b ∈ State.reset.buf ++ [0xFF#8], b ≠ 0xA9#8) ∧
    (after (.rx sq) State.reset).map (fun u => u.buf ++ []) = some [] ∧
    (after (.rx (sq ++ sq.take 2)) State.reset).map (fun u => (u.buf ++ sq.drop 2).head?) = some (some 0xA9#8) := by decide

/-- `AlignedStreamEndsAlikeUnderEveryCutting`: garbage, two windows and a partial one, cut inside a window. -/
theorem witness_alignedStream :
    (∀ b ∈ [0xFF#8, 0xFF#8], b ≠ 0xA9#8) ∧ (∀ F ∈ [buildStatusQuery, buildPowerCommand true], F.b0 = 0xA9#8) ∧
    ([0xA9#8, 0x17#8].length ≤ 7 ∧ [0xA9#8, 0x17#8].head? = some 0xA9#8) ∧
    [[0xFF#8], 0xFF#8 :: sq.take 3, [], sq.drop 3 ++ pon ++ [0xA9#8], [0x17#8]].flatten =
      [0xFF#8, 0xFF#8] ++ [buildStatusQuery, buildPowerCommand true].flatMap Frame.toList ++ [0xA9#8, 0x17#8] := by decide

/-- `LeftOverWithoutMarkerIsHarmless` (F14), `NoEchoLoop`. -/
theorem witness_leftOver :
    (∀ b ∈ (between [0x9A#8] 0#8 false).buf, b ≠ 0xA9#8) ∧ (between [] 4#8 true).buf = [] := by decide

/-- `StepRunsTheHeadEvent`, `OnlyTheNamedEventsWrite`: an event at the head, and none; an `RX` that arms the timer, an
`RX` that writes, a tick that writes the state. -/
theorem witness_step :
    State.reset.inbox = [] ∧
    (∃ t, busy.inbox = .tick :: [.rx sq, .idleTimeout] ∧ step busy = .next t ∧ t.devState ≠ busy.devState) ∧
    (∃ s t : State, s.inbox = .rx (pon ++ sq) :: [] ∧ step s = .next t ∧ s.tickArmed = false ∧ t.tickArmed = true ∧
      t.tx ≠ s.tx) :=
  ⟨rfl, ⟨_, rfl, rfl, by decide⟩,
   ⟨{ State.reset with inbox := [.rx (pon ++ sq)] }, _, rfl, rfl, rfl, by decide, by decide⟩⟩

/-- `AccessTableWrites`: every kind of window, and the three handlers, give a next state. -/
theorem witness_accessTableWrites :
    matchFrame buildStatusQuery = .statusQuery ∧ matchFrame (buildPowerCommand true) = .powerOn ∧
    matchFrame (buildPowerCommand false) = .powerOff ∧ matchFrame (buildStatusResponse 0#8) = .unrecognized ∧
    (∃ t, exec (.rx sq) busy = .next t) ∧ (∃ t, exec (decodeFrameRx buildStatusQuery) busy = .next t) ∧
    (∃ t, exec .idleTimeout busy = .next t) ∧ (∃ t, exec .tick busy = .next t) :=
  ⟨by decide, by decide, by decide, by decide, ⟨_, rfl⟩, ⟨_, rfl⟩, ⟨_, rfl⟩, ⟨_, rfl⟩⟩

/-- `AccessTableReads`: two different states that agree on what each handler reads. -/
theorem witness_accessTableReads :
    (between [0xA9#8] 1#8 true).buf = (between [0xA9#8] 3#8 false).buf ∧
    (between [0xA9#8] 1#8 true).devState = (between [] 1#8 true).devState ∧
    (between [0xA9#8] 1#8 true).tickArmed = (between [] 1#8 true).tickArmed ∧
    (between [0xA9#8] 1#8 true).idleArmed = (between [0x00#8] 4#8 false).idleArmed ∧
    (between [0xA9#8] 1#8 true).idleArmed = true := by decide

/-- `RxAndTickCommuteWithoutQueries`: its hypotheses are met by a power command and a tick that stops the timer, and its
conclusion fails there; `RxAndTickCommuteWithoutCommands`: a window that is no command. -/
theorem witness_rxAndTick :
    (∃ t u v w : State, (∀ W ∈ dispatchedWindows (between [] 5#8 true) pon, matchFrame W ≠ .statusQuery) ∧
      exec (.rx pon) (between [] 5#8 true) = .next t ∧ exec .tick t = .next v ∧
      exec .tick (between [] 5#8 true) = .next u ∧ exec (.rx pon) u = .next w ∧
      v.tickArmed = false ∧ w.tickArmed = true) ∧
    (dispatchedWindows State.reset stray).length = 1 ∧
    ∀ W ∈ dispatchedWindows State.reset stray, matchFrame W = .unrecognized :=
  ⟨⟨_, _, _, _, by decide, rfl, rfl, rfl, rfl, by decide, by decide⟩, by decide, by decide⟩

/-- `DecodeOfEncode`: every row has a well-formed instruction. -/
theorem witness_wellFormed :
    ([.statusQuery, .powerOn, .powerOff, .unrecognized (buildStatusResponse 0#8), .statusResponse 0xFF#8 0xFF#8, .sof,
      .garbageByte 0x9A#8, .tickStandby, .tickStartup, .tickStartuplamp, .tickPoweron, .tickCooling1, .tickDefault 5#8,
      .rx [], .rx stray, .idleTimeout, .tick, .reset, .buildStatusQuery, .buildPowerCommand true,
      .matchFrame buildStatusQuery] : List Instr).all (Instr.wellFormed Params.source) = true := by decide

/-- `EncodeOfDecode`: a well-formed result, a response word whose byte 6 is another, and a chunk of one byte more than a
bound admits. -/
theorem witness_encodeOfDecode :
    decode .eventRx [0#8, 0#8, 0#8, 0#8] = .ok (.rx [0#8, 0#8, 0#8, 0#8]) ∧ 3 < [0#8, 0#8, 0#8, 0#8].length ∧
    decode .frameRx sq = .ok .statusQuery ∧
    decode .frameTx [0xA9#8, 0x01#8, 0x02#8, 0x02#8, 0x00#8, 0x00#8, 0x00#8, 0x9A#8] = .ok (.statusResponse 0#8 0#8) := by
  decide

/-- `StagedTableWordsRun`: a word of each clause, the byte codes at the bound. -/
theorem witness_staged :
    rowStatusResponse.takes (Frame.ofBits 0xA90102020004079A#64) = true ∧
    rowStatusResponse.takes (Frame.ofBits 0xA90102010000039A#64) = false ∧
    rowStatusResponse.takes (Frame.ofBits 0x0000000000000000#64) = false ∧
    (0x08#8 : Byte).toNat ≤ 8 ∧ 8 < (0x09#8 : Byte).toNat := by decide

/-- `TimedRunsAreUntimedRuns`: a run with time passing and both timeouts. -/
theorem witness_timedRun :
    (timedRun [.event (.rx (pon ++ [0xA9#8])), .elapse 1000, .event .tick, .elapse 1000, .event .tick, .elapse 1000,
      .event .idleTimeout, .event .tick] State.reset).map State.arch = some ⟨[], 3#8, false, false⟩ := by decide

/-- `RestingPointAfterThreePeriods`, both resting points: the three periods, with the idle timer stopped, and then more
time. -/
theorem witness_threePeriods :
    ((between [] 0#8 true).tickRem = 1000 ∧ (between [] 0#8 true).idleArmed = false) ∧
    (timedRun [.elapse 1000, .event .tick, .elapse 1000, .event .tick, .elapse 1000, .event .tick, .elapse 1]
      (between [] 0#8 true)).map (fun t => (t.now, t.tickArmed, t.devState)) = some (3001, false, 3#8) ∧
    (timedRun [.elapse 1000, .event .tick, .elapse 1000, .event .tick, .elapse 1000, .event .tick]
      (between [] 3#8 true)).map (fun t => (t.now, t.tickArmed, t.devState)) = some (3000, false, 0#8) := by decide

/-- The two statements before and after with other parameters: a period of 2 and an idle duration of 5. -/
theorem witness_otherParameters :
    (timedRun [.event (.rx pon), .elapse 2, .event .tick, .elapse 2, .event .tick, .elapse 2, .event .tick]
      { State.reset with params := ⟨5, 2, some 8⟩ }).map (fun t => (t.now, t.tickArmed, t.devState)) =
      some (6, false, 3#8) ∧
    (timedRun [.event (.rx [0xA9#8]), .elapse 5] { State.reset with params := ⟨5, 2, some 8⟩ }).map
      (fun t => timedAdmits t .idleTimeout) = some true ∧
    timedRun [.event (.rx (pon ++ sq))] { State.reset with params := ⟨5, 2, some 8⟩ } = none := by decide

/-- `IdleTimeoutNotBeforeItsDuration`: a partial frame, ticks between, and the timeout due at the end. -/
theorem witness_idleDuration :
    (after (.rx [0x00#8]) busy).map State.buf = some [0xA9#8, 0x01#8, 0x00#8] ∧
    (timedRun [.event (.rx [0x00#8]), .elapse 1000, .event .tick, .elapse 1000, .event .tick, .elapse 1000] busy).map
      (fun t => (t.now, timedAdmits t .idleTimeout)) = some (3000, true) := by decide

end Sys2Proof.Tests
end

