-- ==== Sys2Proof/Proofs/FrameNumber.lean ====
section
/-!
The 64-bit number of a frame (`00_scope.md` R8): one value equation for `Frame.toBits` and one for `frameByte`; the round
trips follow by arithmetic.
-/

namespace Sys2Proof

/-- Putting a byte behind a word shifts the word up by one byte. -/
theorem toNat_append_byte {n : Nat} (x : BitVec n) (b : Byte) : (x ++ b).toNat = x.toNat * 2 ^ 8 + b.toNat := by
  rw [BitVec.toNat_append, ← Nat.shiftLeft_add_eq_or_of_lt b.isLt, Nat.shiftLeft_eq]

/-- The weights of R8. -/
theorem Frame.toBits_toNat (W : Frame) :
    W.toBits.toNat = W.b0.toNat * 2 ^ 56 + W.b1.toNat * 2 ^ 48 + W.b2.toNat * 2 ^ 40 + W.b3.toNat * 2 ^ 32 +
      W.b4.toNat * 2 ^ 24 + W.b5.toNat * 2 ^ 16 + W.b6.toNat * 2 ^ 8 + W.b7.toNat := by
  simp only [Frame.toBits, toNat_append_byte]
  omega

/-- Byte `k` is a digit of the number in base 256. -/
theorem frameByte_toNat (v : BitVec 64) (k : Nat) :
    (frameByte v k).toNat = v.toNat / 2 ^ (56 - 8 * k) % 2 ^ 8 := by
  rw [frameByte, BitVec.extractLsb'_toNat, Nat.shiftRight_eq_div_pow]

theorem Frame.ofBits_toBits (W : Frame) : Frame.ofBits W.toBits = W := by
  have hdigit (k : Nat) (b : Byte) (h : W.toBits.toNat / 2 ^ (56 - 8 * k) % 2 ^ 8 = b.toNat) :
      frameByte W.toBits k = b := BitVec.eq_of_toNat_eq ((frameByte_toNat _ k).trans h)
  have hbits := W.toBits_toNat
  simp only [Frame.ofBits]
  congr <;> apply hdigit <;> omega

theorem Frame.toBits_ofBits (v : BitVec 64) : (Frame.ofBits v).toBits = v := by
  apply BitVec.eq_of_toNat_eq
  simp only [Frame.toBits_toNat, Frame.ofBits, frameByte_toNat]
  have := v.isLt
  omega

/-- Settles O50: the number has the weights of R8, and byte `k` is its digit in base 256. -/
theorem frameNumberRoundTrip : Obligations.FrameNumberRoundTrip :=
  ⟨fun W => ⟨W.ofBits_toBits, W.toBits_toNat⟩, Frame.toBits_ofBits⟩

end Sys2Proof
end

