-- ==== Sys2Proof/Proofs/Untimed.lean ====
section
/-!
Noninterference of the timed refinement (`00_scope.md` R6, `60_exceptions.md` R149, `70_reset_and_hazards.md` R180): two
states that agree but for the parameters, the counters and the time stay so under every operation, hence under every
instruction and every step.
-/

namespace Sys2Proof.Machine

/-- `t` is `s` but for the four fields no untimed rule reads: the parameters, the two counters and the time. -/
def State.UntimedEq (s t : State) : Prop :=
  ∃ (p : Params) (a b c : Nat), t = { s with params := p, idleRem := a, tickRem := b, now := c }

namespace State.UntimedEq

variable {s t : State}

/-- The form in which the obligation compares two states. -/
theorem restore_eq (h : s.UntimedEq t) :
    { t with params := s.params, idleRem := s.idleRem, tickRem := s.tickRem, now := s.now } = s := by
  obtain ⟨p, a, b, c, rfl⟩ := h
  rfl

/-! The fields a rule reads are the same in both states. -/

theorem buf_eq (h : s.UntimedEq t) : t.buf = s.buf := by
  obtain ⟨p, a, b, c, rfl⟩ := h
  rfl

theorem devState_eq (h : s.UntimedEq t) : t.devState = s.devState := by
  obtain ⟨p, a, b, c, rfl⟩ := h
  rfl

theorem idleArmed_eq (h : s.UntimedEq t) : t.idleArmed = s.idleArmed := by
  obtain ⟨p, a, b, c, rfl⟩ := h
  rfl

theorem tickArmed_eq (h : s.UntimedEq t) : t.tickArmed = s.tickArmed := by
  obtain ⟨p, a, b, c, rfl⟩ := h
  rfl

theorem inbox_eq (h : s.UntimedEq t) : t.inbox = s.inbox := by
  obtain ⟨p, a, b, c, rfl⟩ := h
  rfl

/-! The primitives: a timer operation may write a counter, and no other field from what it reads there. -/

theorem append (h : s.UntimedEq t) (chunk : List Byte) : (s.append chunk).UntimedEq (t.append chunk) := by
  obtain ⟨p, a, b, c, rfl⟩ := h
  exact ⟨p, a, b, c, rfl⟩

theorem dropFront (h : s.UntimedEq t) (n : Nat) : (s.dropFront n).UntimedEq (t.dropFront n) := by
  obtain ⟨p, a, b, c, rfl⟩ := h
  exact ⟨p, a, b, c, rfl⟩

theorem clearBuf (h : s.UntimedEq t) : s.clearBuf.UntimedEq t.clearBuf := by
  obtain ⟨p, a, b, c, rfl⟩ := h
  exact ⟨p, a, b, c, rfl⟩

theorem setDevState (h : s.UntimedEq t) (d : StateCode) : (s.setDevState d).UntimedEq (t.setDevState d) := by
  obtain ⟨p, a, b, c, rfl⟩ := h
  exact ⟨p, a, b, c, rfl⟩

theorem trace (h : s.UntimedEq t) (e : LogEntry) : (s.trace e).UntimedEq (t.trace e) := by
  obtain ⟨p, a, b, c, rfl⟩ := h
  exact ⟨p, a, b, c, rfl⟩

theorem txWrite (h : s.UntimedEq t) (F : Frame) : (s.txWrite F).UntimedEq (t.txWrite F) := by
  obtain ⟨p, a, b, c, rfl⟩ := h
  exact ⟨p, a, b, c, rfl⟩

theorem codecReturn (h : s.UntimedEq t) (r : CodecResult) : (s.codecReturn r).UntimedEq (t.codecReturn r) := by
  obtain ⟨p, a, b, c, rfl⟩ := h
  exact ⟨p, a, b, c, rfl⟩

theorem takeEvent (h : s.UntimedEq t) (rest : List Input) : (s.takeEvent rest).UntimedEq (t.takeEvent rest) := by
  obtain ⟨p, a, b, c, rfl⟩ := h
  exact ⟨p, a, b, c, rfl⟩

theorem timerStart (h : s.UntimedEq t) (T : Timer) : (s.timerStart T).UntimedEq (t.timerStart T) := by
  obtain ⟨p, a, b, c, rfl⟩ := h
  cases T with
  | idle => exact ⟨p, p.idleMs, b, c, rfl⟩
  | tick => exact ⟨p, a, p.tickMs, c, rfl⟩

theorem timerStop (h : s.UntimedEq t) (T : Timer) : (s.timerStop T).UntimedEq (t.timerStop T) := by
  obtain ⟨p, a, b, c, rfl⟩ := h
  cases T with
  | idle => exact ⟨p, 0, b, c, rfl⟩
  | tick => exact ⟨p, a, 0, c, rfl⟩

theorem idleExpired (h : s.UntimedEq t) : s.idleExpired.UntimedEq t.idleExpired := by
  obtain ⟨p, a, b, c, rfl⟩ := h
  exact ⟨p, 0, b, c, rfl⟩

theorem tickContinue (h : s.UntimedEq t) : s.tickContinue.UntimedEq t.tickContinue := by
  obtain ⟨p, a, b, c, rfl⟩ := h
  exact ⟨p, a, p.tickMs, c, rfl⟩

theorem construct (h : s.UntimedEq t) : (construct s).UntimedEq (construct t) := by
  obtain ⟨p, a, b, c, rfl⟩ := h
  exact ⟨p, 0, 0, c, rfl⟩

/-! The receive handler (R80 to R87): its branches are taken on `BUF` and on the window alone. -/

theorem discardFront (h : s.UntimedEq t) (n : Nat) : (s.discardFront n).UntimedEq (t.discardFront n) := by
  unfold State.discardFront
  rw [h.buf_eq]
  split
  · exact h
  · exact (h.trace _).dropFront n

theorem markerSearch (h : s.UntimedEq t) : s.markerSearch.UntimedEq t.markerSearch := by
  unfold State.markerSearch
  rw [h.buf_eq]
  split
  · exact h.discardFront _
  · exact h.discardFront _

theorem idleControl (h : s.UntimedEq t) : s.idleControl.UntimedEq t.idleControl := by
  unfold State.idleControl
  rw [h.buf_eq]
  split
  · exact h.timerStop .idle
  · exact h.timerStart .idle

theorem statusQuery (h : s.UntimedEq t) : (statusQuery s).UntimedEq (statusQuery t) := by
  unfold Machine.statusQuery
  rw [h.devState_eq]
  exact h.txWrite _

theorem dispatch (h : s.UntimedEq t) (W : Frame) : (dispatch W s).UntimedEq (dispatch W t) := by
  unfold Machine.dispatch
  cases matchFrame W with
  | statusQuery => exact h.statusQuery
  | powerOn => exact h.timerStart .tick
  | powerOff => exact h.timerStart .tick
  | unrecognized => exact h.trace _

theorem framingLoop (h : s.UntimedEq t) (n : Nat) : (framingLoop n s).UntimedEq (framingLoop n t) := by
  induction n generalizing s t with
  | zero => exact h
  | succ n ih =>
    rw [Machine.framingLoop, Machine.framingLoop, h.buf_eq]
    cases frontWindow s.buf with
    | none => exact h
    | some W => exact ih ((h.dispatch W).dropFront frameLen)

theorem rx (h : s.UntimedEq t) (chunk : List Byte) : (rx chunk s).UntimedEq (rx chunk t) := by
  have hsearch := (h.append chunk).markerSearch
  simp only [Machine.rx, hsearch.buf_eq]
  exact (hsearch.framingLoop _).idleControl

theorem garbageByte (h : s.UntimedEq t) (x : Byte) : (garbageByte x s).UntimedEq (garbageByte x t) := by
  unfold Machine.garbageByte
  rw [h.buf_eq]
  split
  · exact h.discardFront 1
  · exact h

/-! The two timeout handlers (R110 to R120): their branches are taken on `STATE` and on the flags alone. -/

/-- The four rows of the table after which the timer goes on (R111, R112, R114, R115). -/
theorem tickMovesOn (h : s.UntimedEq t) (d : StateCode) :
    (s.setDevState d).tickContinue.UntimedEq (t.setDevState d).tickContinue :=
  (h.setDevState d).tickContinue

/-- The two rows of the table that stop the timer (R113, R116). -/
theorem tickComesToRest (h : s.UntimedEq t) (d : StateCode) :
    ((s.setDevState d).timerStop .tick).UntimedEq ((t.setDevState d).timerStop .tick) :=
  (h.setDevState d).timerStop .tick

theorem tickRow (h : s.UntimedEq t) (d : StateCode) : (tickRow d s).UntimedEq (tickRow d t) := by
  unfold Machine.tickRow
  split_ifs
  · exact h.tickMovesOn _
  · exact h.tickMovesOn _
  · exact h.tickComesToRest _
  · exact h.tickMovesOn _
  · exact h.tickMovesOn _
  · exact h.tickComesToRest _

theorem stateTick (h : s.UntimedEq t) : (stateTick s).UntimedEq (stateTick t) := by
  unfold Machine.stateTick
  rw [h.tickArmed_eq, h.devState_eq]
  split
  · exact h.tickRow _
  · exact h

theorem idleTimeout (h : s.UntimedEq t) : (idleTimeout s).UntimedEq (idleTimeout t) := by
  unfold Machine.idleTimeout
  rw [h.idleArmed_eq]
  split
  · exact h.clearBuf.idleExpired
  · exact h

end State.UntimedEq

/-- Both outcomes are next states, and these agree but for the fields of the timed refinement. -/
def UntimedNext (x y : Host.Outcome State Fault Refusal) : Prop :=
  ∃ t u, x = .next t ∧ y = .next u ∧ t.UntimedEq u

theorem State.UntimedEq.next {s t : State} (h : s.UntimedEq t) : UntimedNext (.next s) (.next t) :=
  ⟨s, t, rfl, rfl, h⟩

/-- No instruction reads the fields of the timed refinement (R6, R180). -/
theorem exec_untimedNext (i : Instr) {s t : State} (h : s.UntimedEq t) : UntimedNext (exec i s) (exec i t) := by
  cases i with
  | statusQuery => exact h.statusQuery.next
  | powerOn => exact (h.timerStart .tick).next
  | powerOff => exact (h.timerStart .tick).next
  | unrecognized W => exact (h.trace _).next
  | statusResponse ss cc => exact (h.codecReturn _).next
  | sof => exact h.next
  | garbageByte x => exact (h.garbageByte x).next
  | tickStandby => exact (h.tickMovesOn _).next
  | tickStartup => exact (h.tickMovesOn _).next
  | tickStartuplamp => exact (h.tickComesToRest _).next
  | tickPoweron => exact (h.tickMovesOn _).next
  | tickCooling1 => exact (h.tickMovesOn _).next
  | tickDefault left => exact (h.tickComesToRest _).next
  | rx chunk => exact (h.rx chunk).next
  | idleTimeout => exact h.idleTimeout.next
  | tick => exact h.stateTick.next
  | reset => exact h.construct.next
  | buildStatusQuery => exact (h.codecReturn _).next
  | buildPowerCommand on => exact (h.codecReturn _).next
  | matchFrame W => exact (h.codecReturn _).next

/-- No step reads them: the event taken is the same in both states. -/
theorem step_untimedNext {s t : State} (h : s.UntimedEq t) : UntimedNext (step s) (step t) := by
  unfold step
  rw [h.inbox_eq]
  cases s.inbox with
  | nil => exact h.next
  | cons i rest => exact exec_untimedNext i.toInstr (h.takeEvent rest)

/-- The agreement in the words of the obligation. -/
theorem UntimedNext.restore {x y : Host.Outcome State Fault Refusal} (h : UntimedNext x y) :
    ∃ t u, x = .next t ∧ y = .next u ∧
      { u with params := t.params, idleRem := t.idleRem, tickRem := t.tickRem, now := t.now } = t := by
  obtain ⟨t, u, hx, hy, hu⟩ := h
  exact ⟨t, u, hx, hy, hu.restore_eq⟩

/-- Settles O58: agreement but for the fields of the timed refinement is kept by every instruction and every step. -/
theorem untimedResultsReadNoDuration : Obligations.UntimedResultsReadNoDuration := by
  intro s p a b c
  have h : s.UntimedEq { s with params := p, idleRem := a, tickRem := b, now := c } := ⟨p, a, b, c, rfl⟩
  exact ⟨fun i => (exec_untimedNext i h).restore, (step_untimedNext h).restore⟩

end Sys2Proof.Machine
end

