-- ==== Sys2Proof/Proofs/ArchitecturalState.lean ====
section
/-!
The architectural state between events (`10_state.md` R11 to R23): the receive handler reduced to its closed form, what each
handler writes, field by field, and from these the invariant, the access table and the register view.
-/

namespace Sys2Proof.Machine

/-! ### The receive handler is its closed form (R80, R89) -/

/-- Steps 1 and 2 of `RX`: `BUF` becomes the aligned bytes, and the discarded ones are logged (R81 to R83). -/
theorem append_markerSearch_eq (chunk : List Byte) (s : State) :
    (s.append chunk).markerSearch =
      { s with buf := alignedBytes s chunk, log := garbageLog s.log (discardedBytes s chunk) } := by
  rw [State.markerSearch_eq, State.append_buf, alignedBytes, discardedBytes]
  cases findSof (s.buf ++ chunk) <;> rfl

/-- Fewer bytes than a window hold no window to dispatch and are left as they are. -/
theorem dispatchAll_windowsOf_of_short (s : State) {l : List Byte} (h : l.length < 8) :
    ({ dispatchAll (windowsOf l) s with buf := leftOver l } : State) = { s with buf := l } := by
  rw [(windowsOf_eq_nil_iff _).2 h, leftOver_of_short _ h, dispatchAll_nil]

/-- Enough rounds of the loop dispatch every whole window and leave the rest (R84 to R88). -/
theorem framingLoop_with_buf (n : Nat) (s : State) (l : List Byte) (hn : l.length / 8 ≤ n) :
    framingLoop n { s with buf := l } = { dispatchAll (windowsOf l) s with buf := leftOver l } := by
  induction n generalizing s l with
  | zero => exact (dispatchAll_windowsOf_of_short s (by omega)).symm
  | succ n ih =>
    rw [framingLoop]
    cases hW : frontWindow l with
    | none => exact (dispatchAll_windowsOf_of_short s ((frontWindow_eq_none_iff _).1 hW)).symm
    | some W =>
      obtain ⟨hlong, hwindows, hrest⟩ := frontWindow_some _ _ hW
      have hround : (dispatch W { s with buf := l }).dropFront frameLen = { dispatch W s with buf := l.drop 8 } := by
        rw [dispatch_with_buf]
        rfl
      rw [hwindows, hrest, dispatchAll_cons]
      simp only [hround]
      exact ih _ _ (by rw [List.length_drop]; omega)

/-- The handler with its loop equals the closed form of R89. -/
theorem rx_eq_rxClosed (chunk : List Byte) (s : State) : rx chunk s = rxClosed chunk s := by
  have hloop := framingLoop_with_buf _ { s with log := garbageLog s.log (discardedBytes s chunk) }
    (alignedBytes s chunk) (Nat.div_le_self _ 8)
  rw [rx, append_markerSearch_eq]
  exact congrArg State.idleControl hloop

/-! ### What `RX` writes (R87, R107) -/

theorem dispatchAll_tickArmed (Ws : List Frame) (s : State) :
    (dispatchAll Ws s).tickArmed = (s.tickArmed || Ws.any isPowerWindow) := by
  induction Ws generalizing s with
  | nil => simp
  | cons W Ws ih =>
    obtain ⟨harmed, -, -⟩ := dispatch_kinds W s
    rw [dispatchAll_cons, ih, harmed, List.any_cons, Bool.or_assoc]

theorem dispatchAll_tickRem (Ws : List Frame) (s : State) :
    (dispatchAll Ws s).tickRem = if Ws.any isPowerWindow then s.params.tickMs else s.tickRem := by
  induction Ws generalizing s with
  | nil => simp
  | cons W Ws ih =>
    obtain ⟨-, hrem, -⟩ := dispatch_kinds W s
    rw [dispatchAll_cons, ih, hrem, dispatch_params]
    cases hW : isPowerWindow W <;> simp [hW]

theorem dispatchAll_tx (Ws : List Frame) (s : State) :
    (dispatchAll Ws s).tx = s.tx ++ List.replicate (Ws.countP isQueryWindow) (buildStatusResponse s.devState) := by
  induction Ws generalizing s with
  | nil => simp
  | cons W Ws ih =>
    obtain ⟨-, -, htx⟩ := dispatch_kinds W s
    rw [dispatchAll_cons, ih, htx, dispatch_devState]
    cases hW : isQueryWindow W <;> simp [hW, List.replicate_succ]

theorem State.idleControl_idleRem (s : State) :
    s.idleControl.idleRem = if s.buf.isEmpty then 0 else s.params.idleMs := by
  rcases s.idleControl_cases with ⟨h, e⟩ | ⟨h, e⟩ <;> rw [e] <;> simp [h]

@[simp] theorem rx_params (chunk : List Byte) (s : State) : (rx chunk s).params = s.params := by
  simp [rx_eq_rxClosed, rxClosed]
@[simp] theorem rx_buf (chunk : List Byte) (s : State) : (rx chunk s).buf = leftOver (alignedBytes s chunk) := by
  simp [rx_eq_rxClosed, rxClosed]
@[simp] theorem rx_devState (chunk : List Byte) (s : State) : (rx chunk s).devState = s.devState := by
  simp [rx_eq_rxClosed, rxClosed]
theorem rx_idleArmed (chunk : List Byte) (s : State) : (rx chunk s).idleArmed = !(rx chunk s).buf.isEmpty := by
  simp [rx_eq_rxClosed, rxClosed, State.idleControl_idleArmed]
theorem rx_idleRem (chunk : List Byte) (s : State) :
    (rx chunk s).idleRem = if (rx chunk s).buf.isEmpty then 0 else s.params.idleMs := by
  simp [rx_eq_rxClosed, rxClosed, State.idleControl_idleRem]
theorem rx_tickArmed (chunk : List Byte) (s : State) :
    (rx chunk s).tickArmed = (s.tickArmed || (dispatchedWindows s chunk).any isPowerWindow) := by
  simp [rx_eq_rxClosed, rxClosed, dispatchAll_tickArmed]
theorem rx_tickRem (chunk : List Byte) (s : State) :
    (rx chunk s).tickRem =
      if (dispatchedWindows s chunk).any isPowerWindow then s.params.tickMs else s.tickRem := by
  simp [rx_eq_rxClosed, rxClosed, dispatchAll_tickRem]
theorem rx_tx (chunk : List Byte) (s : State) :
    (rx chunk s).tx = s.tx ++
      List.replicate ((dispatchedWindows s chunk).countP isQueryWindow) (buildStatusResponse s.devState) := by
  simp [rx_eq_rxClosed, rxClosed, dispatchAll_tx]

/-- Fewer bytes than a window stay, whatever `BUF` held before (R13, R88). -/
theorem rx_buf_length (chunk : List Byte) (s : State) : (rx chunk s).buf.length ≤ Config.bufResident := by
  rw [rx_buf, leftOver_length, bufResident_eq]
  omega

theorem alignedBytes_eq_nil_or_head (s : State) (chunk : List Byte) :
    alignedBytes s chunk = [] ∨ (alignedBytes s chunk).head? = some sofByte := by
  unfold alignedBytes
  cases hfind : findSof (s.buf ++ chunk) with
  | none => exact .inl rfl
  | some i =>
    obtain ⟨pre, post, hbytes, rfl, -⟩ := (findSof_eq_some_iff _ _).1 hfind
    exact .inr (by simp [hbytes])

/-- The framing reads `BUF` and nothing else (R23). -/
theorem alignedBytes_congr {s s' : State} (h : s.buf = s'.buf) (chunk : List Byte) :
    alignedBytes s chunk = alignedBytes s' chunk := by
  rw [alignedBytes, alignedBytes, h]

theorem isPowerWindow_iff (W : Frame) :
    isPowerWindow W = true ↔ matchFrame W = .powerOn ∨ matchFrame W = .powerOff := by
  unfold isPowerWindow
  cases matchFrame W <;> simp

/-! ### What `TICK` and `IDLE_TIMEOUT` write (R110 to R120) -/

/-- A code the table does not list is above the listed ones (R116). -/
theorem four_lt_of_unlisted {c : BitVec 8} (h0 : c ≠ 0x00#8) (h1 : c ≠ 0x01#8) (h2 : c ≠ 0x02#8) (h3 : c ≠ 0x03#8)
    (h4 : c ≠ 0x04#8) : 4 < c.toNat := by
  bv_omega

/-- The table of R118 as a function of the code. -/
theorem tickRow_devState (c : StateCode) (s : State) :
    (tickRow c s).devState = if c.toNat ≤ 4 then c + 1#8 else 0x00#8 := by
  rcases tickRow_cases c s with ⟨d, hd, e⟩ | ⟨rfl, e⟩ | ⟨h0, h1, h2, h3, h4, e⟩ <;> rw [e]
  · rcases hd with ⟨rfl, rfl⟩ | ⟨rfl, rfl⟩ | ⟨rfl, rfl⟩ | ⟨rfl, rfl⟩ <;> rfl
  · rfl
  · rw [if_neg (four_lt_of_unlisted h0 h1 h2 h3 h4).not_ge]
    rfl

/-- The timer goes on after the listed codes but 0x02, and stops after every other (R111 to R116). -/
theorem tickRow_tickArmed (c : StateCode) (s : State) :
    (tickRow c s).tickArmed = (s.tickArmed && decide (c ≠ 0x02#8 ∧ c.toNat ≤ 4)) := by
  rcases tickRow_cases c s with ⟨d, hd, e⟩ | ⟨rfl, e⟩ | ⟨h0, h1, h2, h3, h4, e⟩ <;> rw [e]
  · rcases hd with ⟨rfl, rfl⟩ | ⟨rfl, rfl⟩ | ⟨rfl, rfl⟩ | ⟨rfl, rfl⟩ <;> simp
  · simp
  · have hc := (four_lt_of_unlisted h0 h1 h2 h3 h4).not_ge
    simp [hc]

/-- Everything `TICK` can do: nothing, move on to a code that can be held, or come to rest in Standby or PowerOn. -/
theorem stateTick_cases (s : State) :
    (s.tickArmed = false ∧ stateTick s = s) ∨
    (s.tickArmed = true ∧ ∃ d : StateCode, d.toNat ≤ 5 ∧ stateTick s = (s.setDevState d).tickContinue) ∨
    (s.tickArmed = true ∧ ∃ d : StateCode, (d = 0x00#8 ∨ d = 0x03#8) ∧
      stateTick s = (s.setDevState d).timerStop .tick) := by
  unfold stateTick
  cases s.tickArmed with
  | false => exact .inl ⟨rfl, rfl⟩
  | true =>
    refine .inr ?_
    rcases tickRow_cases s.devState s with ⟨d, hd, e⟩ | ⟨-, e⟩ | ⟨-, -, -, -, -, e⟩
    · have hsmall : d.toNat ≤ 5 := by
        rcases hd with ⟨-, rfl⟩ | ⟨-, rfl⟩ | ⟨-, rfl⟩ | ⟨-, rfl⟩ <;> decide
      exact .inl ⟨rfl, d, hsmall, e⟩
    · exact .inr ⟨rfl, 0x03#8, .inr rfl, e⟩
    · exact .inr ⟨rfl, 0x00#8, .inl rfl, e⟩

@[simp] theorem stateTick_buf (s : State) : (stateTick s).buf = s.buf := by
  rcases stateTick_cases s with ⟨-, e⟩ | ⟨-, d, -, e⟩ | ⟨-, d, -, e⟩ <;> simp [e]
@[simp] theorem stateTick_idleArmed (s : State) : (stateTick s).idleArmed = s.idleArmed := by
  rcases stateTick_cases s with ⟨-, e⟩ | ⟨-, d, -, e⟩ | ⟨-, d, -, e⟩ <;> simp [e]
@[simp] theorem stateTick_tx (s : State) : (stateTick s).tx = s.tx := by
  rcases stateTick_cases s with ⟨-, e⟩ | ⟨-, d, -, e⟩ | ⟨-, d, -, e⟩ <;> simp [e]

/-- `TICK` never arms the state timer. -/
theorem stateTick_tickArmed_of_stopped (s : State) (h : s.tickArmed = false) : (stateTick s).tickArmed = false := by
  simp [stateTick, h]

theorem idleTimeout_cases (s : State) :
    (s.idleArmed = false ∧ idleTimeout s = s) ∨ (s.idleArmed = true ∧ idleTimeout s = s.clearBuf.idleExpired) := by
  unfold idleTimeout
  cases s.idleArmed <;> simp

@[simp] theorem idleTimeout_devState (s : State) : (idleTimeout s).devState = s.devState := by
  rcases idleTimeout_cases s with ⟨-, e⟩ | ⟨-, e⟩ <;> simp [e]
@[simp] theorem idleTimeout_tickArmed (s : State) : (idleTimeout s).tickArmed = s.tickArmed := by
  rcases idleTimeout_cases s with ⟨-, e⟩ | ⟨-, e⟩ <;> simp [e]
@[simp] theorem idleTimeout_tx (s : State) : (idleTimeout s).tx = s.tx := by
  rcases idleTimeout_cases s with ⟨-, e⟩ | ⟨-, e⟩ <;> simp [e]

/-- After `IDLE_TIMEOUT` the idle timer is not armed, whether it was or not (R120, D4). -/
theorem idleTimeout_idleArmed (s : State) : (idleTimeout s).idleArmed = false := by
  rcases idleTimeout_cases s with ⟨h, e⟩ | ⟨-, e⟩ <;> rw [e]
  · exact h
  · rfl

/-! ### Events and steps -/

theorem eq_of_next {t u : State} (h : (.next t : Host.Outcome State Fault Refusal) = .next u) : u = t :=
  (Host.Outcome.next.inj h).symm

/-- Everything an offered event can do: one of the four handlers, or a Codec call through the return port. -/
theorem exec_toInstr_cases {e : Input} {s t : State} (h : exec e.toInstr s = .next t) :
    (∃ chunk, e = .rx chunk ∧ t = rx chunk s) ∨ (e = .idleTimeout ∧ t = idleTimeout s) ∨
    (e = .tick ∧ t = stateTick s) ∨ (e = .reset ∧ t = construct s) ∨ ∃ r, t = s.codecReturn r := by
  have hcodec (r : CodecResult) (hr : exec e.toInstr s = .next (s.codecReturn r)) : t = s.codecReturn r :=
    eq_of_next (hr.symm.trans h)
  cases e with
  | rx chunk => exact .inl ⟨chunk, rfl, eq_of_next h⟩
  | idleTimeout => exact .inr (.inl ⟨rfl, eq_of_next h⟩)
  | tick => exact .inr (.inr (.inl ⟨rfl, eq_of_next h⟩))
  | reset => exact .inr (.inr (.inr (.inl ⟨rfl, eq_of_next h⟩)))
  | buildStatusQuery => exact .inr (.inr (.inr (.inr ⟨_, hcodec _ rfl⟩)))
  | buildPowerCommand on => exact .inr (.inr (.inr (.inr ⟨_, hcodec _ rfl⟩)))
  | buildStatusResponse c => exact .inr (.inr (.inr (.inr ⟨_, hcodec _ rfl⟩)))
  | matchFrame W => exact .inr (.inr (.inr (.inr ⟨_, hcodec _ rfl⟩)))

theorem step_of_inbox_nil {s : State} (h : s.inbox = []) : step s = .next s := by
  rw [step, h]

theorem step_of_inbox_cons {s : State} {e : Input} {rest : List Input} (h : s.inbox = e :: rest) :
    step s = exec e.toInstr (s.takeEvent rest) := by
  rw [step, h]

/-! ### The invariant (R13, R16 to R18, R102, R149) -/

/-- Construction meets the invariant whatever the state was. -/
theorem construct_inv (s : State) : (construct s).Inv where
  bufShort := Nat.zero_le _
  idleIffBytes := by simp [construct, State.reset]
  codeSmall := Nat.zero_le _
  restsWhereStopped _ := .inl rfl
  onlyResponses _ hF := absurd hF List.not_mem_nil
  idleCounter := ⟨Nat.zero_le _, fun _ => rfl⟩
  tickCounter := ⟨Nat.zero_le _, fun _ => rfl⟩

/-- Settles O41: the reset state is what construction makes of it. -/
theorem resetMeetsTheInvariant : Obligations.ResetMeetsTheInvariant := construct_inv State.reset

namespace State.Inv

variable {s : State}

/-- No clause speaks of the events to come. -/
theorem takeEvent (h : s.Inv) (rest : List Input) : (s.takeEvent rest).Inv :=
  { h with }

/-- No clause speaks of the Codec's return port. -/
theorem codecReturn (h : s.Inv) (r : CodecResult) : (s.codecReturn r).Inv :=
  { h with }

theorem rx (h : s.Inv) (chunk : List Byte) : (rx chunk s).Inv where
  bufShort := rx_buf_length chunk s
  idleIffBytes := by simp [rx_idleArmed]
  codeSmall := by simpa using h.codeSmall
  restsWhereStopped hstopped := by
    rw [rx_tickArmed, Bool.or_eq_false_iff] at hstopped
    simpa using h.restsWhereStopped hstopped.1
  onlyResponses F hF := by
    rw [rx_tx, List.mem_append, List.mem_replicate] at hF
    rcases hF with hold | ⟨-, hnew⟩
    · exact h.onlyResponses F hold
    · exact ⟨s.devState, h.codeSmall, hnew⟩
  idleCounter := by
    rw [rx_idleRem, rx_idleArmed, rx_params]
    cases (Machine.rx chunk s).buf.isEmpty <;> simp
  tickCounter := by
    rw [rx_tickRem, rx_tickArmed, rx_params]
    cases (dispatchedWindows s chunk).any isPowerWindow
    · simpa using h.tickCounter
    · simp

theorem idleTimeout (h : s.Inv) : (idleTimeout s).Inv := by
  rcases idleTimeout_cases s with ⟨-, e⟩ | ⟨-, e⟩ <;> rw [e]
  · exact h
  · exact { h with
      bufShort := Nat.zero_le _
      idleIffBytes := by simp
      idleCounter := ⟨Nat.zero_le _, fun _ => rfl⟩ }

theorem stateTick (h : s.Inv) : (stateTick s).Inv := by
  rcases stateTick_cases s with ⟨-, e⟩ | ⟨harmed, d, hd, e⟩ | ⟨-, d, hd, e⟩ <;> rw [e]
  · exact h
  · exact { h with
      codeSmall := hd
      restsWhereStopped := by simp [harmed]
      tickCounter := ⟨le_rfl, by simp [harmed]⟩ }
  · exact { h with
      codeSmall := by rcases hd with rfl | rfl <;> simp
      restsWhereStopped := fun _ => hd
      tickCounter := ⟨Nat.zero_le _, fun _ => rfl⟩ }

/-- Every event keeps the invariant. -/
theorem exec_toInstr {e : Input} {t : State} (h : s.Inv) (ht : exec e.toInstr s = .next t) : t.Inv := by
  rcases exec_toInstr_cases ht with ⟨chunk, -, rfl⟩ | ⟨-, rfl⟩ | ⟨-, rfl⟩ | ⟨-, rfl⟩ | ⟨r, rfl⟩
  · exact h.rx chunk
  · exact h.idleTimeout
  · exact h.stateTick
  · exact construct_inv s
  · exact h.codecReturn r

end State.Inv

/-- Settles O40: with no event offered nothing changes, and every event keeps the invariant. -/
theorem stepKeepsTheInvariant : Obligations.StepKeepsTheInvariant := by
  intro s t hinv hstep
  cases hinbox : s.inbox with
  | nil =>
    rw [step_of_inbox_nil hinbox] at hstep
    exact eq_of_next hstep ▸ hinv
  | cons e rest =>
    rw [step_of_inbox_cons hinbox] at hstep
    exact (hinv.takeEvent rest).exec_toInstr hstep

/-! ### `BUF` between events (R13) -/

/-- No event lengthens `BUF` beyond what is resident. -/
theorem exec_toInstr_buf_length {e : Input} {s t : State} (hs : s.buf.length ≤ 7)
    (ht : exec e.toInstr s = .next t) : t.buf.length ≤ 7 := by
  rcases exec_toInstr_cases ht with ⟨chunk, -, rfl⟩ | ⟨-, rfl⟩ | ⟨-, rfl⟩ | ⟨-, rfl⟩ | ⟨r, rfl⟩
  · exact rx_buf_length chunk s
  · rcases idleTimeout_cases s with ⟨-, e⟩ | ⟨-, e⟩ <;> rw [e]
    · exact hs
    · exact Nat.zero_le _
  · rwa [stateTick_buf]
  · exact Nat.zero_le _
  · exact hs

/-- With no window cut, what is left is aligned. -/
theorem rx_buf_eq_nil_or_head (chunk : List Byte) (s : State) (h : dispatchedWindows s chunk = []) :
    (rx chunk s).buf = [] ∨ (rx chunk s).buf.head? = some sofByte := by
  rw [rx_buf, leftOver_of_short _ ((windowsOf_eq_nil_iff _).1 h)]
  exact alignedBytes_eq_nil_or_head s chunk

/-- Behind a window that begins with 0xA9, on the empty buffer, fewer than eight bytes are left as they came. -/
theorem rx_window_append_buf (s : State) (hs : s.buf = []) (W : Frame) (hW : W.b0 = sofByte)
    (r : List Byte) (hr : r.length < 8) : (rx (W.toList ++ r) s).buf = r := by
  have haligned : alignedBytes s (W.toList ++ r) = W.toList ++ r := by
    simp [alignedBytes, hs, Frame.toList, findSof, hW]
  have hfront : frontWindow (W.toList ++ r) = some W := rfl
  obtain ⟨-, -, hrest⟩ := frontWindow_some _ _ hfront
  rw [rx_buf, haligned, hrest]
  exact leftOver_of_short r hr

/-- Settles O27: the third part is the alignment window followed by the bytes to be left. -/
theorem bufferBetweenEvents : Obligations.BufferBetweenEvents :=
  ⟨fun _ _ _ => exec_toInstr_buf_length,
   fun chunk s => ⟨_, rfl, rx_buf_length chunk s, rx_buf_eq_nil_or_head chunk s⟩,
   fun r hr => ⟨_, rfl, rx_window_append_buf State.reset rfl alignmentWindow rfl r (Nat.lt_succ_of_le hr)⟩⟩

/-! ### The access table (R23) -/

/-- A row whose mask is all ones takes its own match and no other window. -/
theorem takes_iff_of_full_mask {r : FrameRow} (h : r.mask = .ofBits 0xFFFFFFFFFFFFFFFF#64) (W : Frame) :
    r.takes W = true ↔ W = r.pattern := by
  have hbyte (b : Byte) : b &&& 0xFF#8 = b := BitVec.and_allOnes
  have hmask : r.mask = ⟨0xFF#8, 0xFF#8, 0xFF#8, 0xFF#8, 0xFF#8, 0xFF#8, 0xFF#8, 0xFF#8⟩ := h.trans (by decide)
  obtain ⟨b0, b1, b2, b3, b4, b5, b6, b7⟩ := W
  obtain ⟨⟨p0, p1, p2, p3, p4, p5, p6, p7⟩, m⟩ := r
  subst hmask
  simp [FrameRow.takes, hbyte, and_assoc]

/-- The table's decoder and the machine's classifier name the same command (R57, R73, R100). -/
theorem exec_decodeFrameRx (W : Frame) (s : State) : exec (decodeFrameRx W) s = .next (dispatch W s) := by
  have hquery : rowStatusQuery.pattern = buildStatusQuery := by decide
  have hon : rowPowerOn.pattern = buildPowerCommand true := by decide
  have hoff : rowPowerOff.pattern = buildPowerCommand false := by decide
  simp only [decodeFrameRx, dispatch, matchFrame, takes_iff_of_full_mask (r := rowStatusQuery) rfl,
    takes_iff_of_full_mask (r := rowPowerOn) rfl, takes_iff_of_full_mask (r := rowPowerOff) rfl, hquery, hon, hoff]
  split_ifs <;> rfl

/-- What a dispatched window writes of the output and the state timer, by its verdict (R102 to R105). -/
theorem dispatch_writes_by_verdict (W : Frame) (s : State) :
    (matchFrame W = .statusQuery →
      (dispatch W s).tickArmed = s.tickArmed ∧ (dispatch W s).tx = s.tx ++ [buildStatusResponse s.devState]) ∧
    (matchFrame W = .powerOn ∨ matchFrame W = .powerOff →
      (dispatch W s).tickArmed = true ∧ (dispatch W s).tx = s.tx) ∧
    (matchFrame W = .unrecognized → (dispatch W s).tickArmed = s.tickArmed ∧ (dispatch W s).tx = s.tx) := by
  rcases dispatch_cases W s with ⟨hv, e⟩ | ⟨hv | hv, e⟩ | ⟨hv, e⟩ <;> rw [e] <;> simp [hv]

/-- Settles O42: the cells each handler leaves, from the lemmas on its fields. -/
theorem accessTableWrites : Obligations.AccessTableWrites := by
  intro s t
  refine ⟨fun chunk h => ?_, fun W h => ?_, fun h => ?_, fun h => ?_⟩
  · rw [eq_of_next h, rx_devState]
  · rw [exec_decodeFrameRx] at h
    rw [eq_of_next h]
    exact ⟨dispatch_buf W s, dispatch_devState W s, dispatch_idleArmed W s, dispatch_writes_by_verdict W s⟩
  · rw [eq_of_next h]
    exact ⟨idleTimeout_devState s, idleTimeout_tickArmed s, idleTimeout_tx s⟩
  · rw [eq_of_next h]
    exact ⟨stateTick_buf s, stateTick_idleArmed s, stateTick_tx s⟩

/-- `RX` reads `BUF`, and keeps a flag of the state timer that it does not set. -/
theorem rx_reads_buf {s s' : State} (h : s.buf = s'.buf) (chunk : List Byte) :
    (rx chunk s).buf = (rx chunk s').buf ∧ (rx chunk s).idleArmed = (rx chunk s').idleArmed ∧
    dispatchedWindows s chunk = dispatchedWindows s' chunk ∧
    (s.tickArmed = s'.tickArmed → (rx chunk s).tickArmed = (rx chunk s').tickArmed) := by
  have hbuf : (rx chunk s).buf = (rx chunk s').buf := by rw [rx_buf, rx_buf, alignedBytes_congr h]
  have hwindows : dispatchedWindows s chunk = dispatchedWindows s' chunk :=
    congrArg windowsOf (alignedBytes_congr h chunk)
  refine ⟨hbuf, ?_, hwindows, fun harmed => ?_⟩
  · rw [rx_idleArmed, rx_idleArmed, hbuf]
  · rw [rx_tickArmed, rx_tickArmed, harmed, hwindows]

/-- `TICK` reads `STATE` and its flag. -/
theorem stateTick_reads {s s' : State} (hcode : s.devState = s'.devState) (harmed : s.tickArmed = s'.tickArmed) :
    (stateTick s).devState = (stateTick s').devState ∧ (stateTick s).tickArmed = (stateTick s').tickArmed := by
  unfold stateTick
  rw [hcode, harmed]
  split
  · rw [tickRow_devState, tickRow_devState, tickRow_tickArmed, tickRow_tickArmed, harmed]
    exact ⟨rfl, rfl⟩
  · exact ⟨hcode, harmed⟩

theorem idleTimeout_buf_of_armed {s : State} (h : s.idleArmed = true) : (idleTimeout s).buf = [] := by
  simp [idleTimeout, h]

/-- Settles O43: what each handler writes is a function of the cells it reads. -/
theorem accessTableReads : Obligations.AccessTableReads := by
  intro s s'
  refine ⟨fun h chunk => ⟨_, _, rfl, rfl, rx_reads_buf h chunk⟩,
    fun hcode harmed => ⟨_, _, rfl, rfl, stateTick_reads hcode harmed⟩, fun harmed => ⟨_, _, rfl, rfl, ?_, fun h => ?_⟩⟩
  · rw [idleTimeout_idleArmed, idleTimeout_idleArmed]
  · rw [idleTimeout_buf_of_armed h, idleTimeout_buf_of_armed (harmed ▸ h)]

/-! ### The writers of `STATE`, the output and the state timer (R15, R18, R106, R133) -/

/-- An `RX` that arms the state timer dispatched a power command. -/
theorem exists_power_window_of_rx_arms {chunk : List Byte} {s : State} (hs : s.tickArmed = false)
    (hrx : (rx chunk s).tickArmed = true) :
    ∃ W ∈ dispatchedWindows s chunk, matchFrame W = .powerOn ∨ matchFrame W = .powerOff := by
  rw [rx_tickArmed, hs, Bool.false_or, List.any_eq_true] at hrx
  obtain ⟨W, hmem, hpower⟩ := hrx
  exact ⟨W, hmem, (isPowerWindow_iff W).1 hpower⟩

/-- Which events write which cell, handler by handler. -/
theorem exec_toInstr_writers {e : Input} {s t : State} (ht : exec e.toInstr s = .next t) :
    (t.devState ≠ s.devState → e = .tick ∨ e = .reset) ∧
    (t.tx ≠ s.tx → (∃ chunk, e = .rx chunk) ∨ e = .reset) ∧
    (s.tickArmed = false → t.tickArmed = true → ∃ chunk, e = .rx chunk ∧
      ∃ W ∈ dispatchedWindows s chunk, matchFrame W = .powerOn ∨ matchFrame W = .powerOff) := by
  rcases exec_toInstr_cases ht with ⟨chunk, rfl, rfl⟩ | ⟨rfl, rfl⟩ | ⟨rfl, rfl⟩ | ⟨rfl, rfl⟩ | ⟨r, rfl⟩
  · exact ⟨fun h => absurd (rx_devState chunk s) h, fun _ => .inl ⟨chunk, rfl⟩,
      fun hs hrx => ⟨chunk, rfl, exists_power_window_of_rx_arms hs hrx⟩⟩
  · exact ⟨fun h => absurd (idleTimeout_devState s) h, fun h => absurd (idleTimeout_tx s) h,
      fun hs harm => by simp [hs] at harm⟩
  · exact ⟨fun _ => .inl rfl, fun h => absurd (stateTick_tx s) h,
      fun hs harm => by simp [stateTick_tickArmed_of_stopped s hs] at harm⟩
  · exact ⟨fun _ => .inr rfl, fun _ => .inr rfl, fun _ harm => absurd harm Bool.false_ne_true⟩
  · exact ⟨fun h => absurd rfl h, fun h => absurd rfl h, fun hs harm => by simp [hs] at harm⟩

/-- Settles O44: the event runs on a state that differs from `s` in the list of events only. -/
theorem onlyTheNamedEventsWrite : Obligations.OnlyTheNamedEventsWrite := by
  intro s t e rest hinbox hstep
  rw [step_of_inbox_cons hinbox] at hstep
  exact (exec_toInstr_writers hstep :)

/-! ### The vocabulary of `STATE` and the register view (R11, R15, R119) -/

/-- The code has no wrap-around: all that is known of it is its bound. -/
theorem unknownCode_toNat : unknownCode.toNat = 9 + Config.unknownOffset.val := by
  have := Config.unknownOffset.isLt
  simp [unknownCode]
  omega

/-- The nine other names stand for codes below 9 (R15). -/
theorem DeviceState.code_toNat_lt_nine {d : DeviceState} (h : d ≠ .unknown) : d.code.toNat < 9 := by
  cases d with
  | unknown => exact absurd rfl h
  | _ => decide

/-- Settles O18: the free code is at least 9, and every code above 4 takes the default row. -/
theorem unknownCodeTakesTheDefaultRow : Obligations.UnknownCodeTakesTheDefaultRow := by
  have hbig : 9 ≤ unknownCode.toNat := unknownCode_toNat ▸ Nat.le_add_right _ _
  refine ⟨hbig, ?_, fun d hd => ?_⟩
  · have hne (c : StateCode) (hc : c.toNat < 9) : unknownCode ≠ c := by
      rintro rfl
      omega
    simp [decodeTick, hne]
  · by_contra hknown
    have := DeviceState.code_toNat_lt_nine hknown
    rw [hd] at this
    omega

/-- Reading the first `n` places of a list, where there are any, gives its first `n` elements. -/
theorem filterMap_range_getElem? {α : Type} (l : List α) (n : Nat) :
    (List.range n).filterMap (fun k => l[k]?) = l.take n := by
  induction n with
  | zero => simp
  | succ n ih =>
    rw [List.range_succ, List.filterMap_append, ih, List.take_add_one]
    cases h : l[n]? <;> simp [h]

theorem finRange_filterMap_bufReg (s : State) : (List.finRange 7).filterMap s.bufReg = s.buf.take 7 := by
  rw [← filterMap_range_getElem?, ← List.map_coe_finRange_eq_range, List.filterMap_map]
  rfl

/-- Settles O28: three bits hold the length, and the seven registers hold the first seven bytes. -/
theorem registerViewOfTheBuffer : Obligations.RegisterViewOfTheBuffer := by
  intro s hs
  have hlen : s.bufLen.toNat = s.buf.length := by
    rw [State.bufLen, BitVec.toNat_ofNat]
    omega
  refine ⟨hlen, fun k => ?_, ?_⟩
  · simp [hlen, State.bufReg]
  · rw [finRange_filterMap_bufReg, List.take_of_length_le hs]

end Sys2Proof.Machine
end

