-- ==== Sys2Proof/Proofs/EventOrder.lean ====
section
/-!
The order of events and their idempotence (`20_memory.md` R37, R38): a handler neither reads nor writes the list of events
to come, so stepping through a list is running the handlers one after the other.
-/

namespace Sys2Proof.Machine

/-! ### Repeated commands (R37) -/

theorem txWrite_arch (s : State) (F : Frame) : (s.txWrite F).arch = s.arch := rfl

/-- Starting the state timer sets its flag, and of the four items nothing else (R145). -/
theorem timerStart_tick_arch (s : State) : (s.timerStart .tick).arch = { s.arch with tickArmed := true } := rfl

theorem timerStart_tick_twice_arch (s : State) :
    ((s.timerStart .tick).timerStart .tick).arch = (s.timerStart .tick).arch := by
  simp only [timerStart_tick_arch]

/-- Settles O8: a query writes the output only, and both power commands set the flag of the state timer. -/
theorem queryAndPowerCommandsAreIdempotent : Obligations.QueryAndPowerCommandsAreIdempotent := fun s =>
  ⟨⟨_, rfl, txWrite_arch s _⟩, ⟨_, _, rfl, rfl, timerStart_tick_twice_arch s⟩,
   ⟨_, _, rfl, rfl, timerStart_tick_twice_arch s⟩⟩

/-! ### One step (R38, R135) -/

/-- Settles O37: the two branches of the step. -/
theorem stepRunsTheHeadEvent : Obligations.StepRunsTheHeadEvent :=
  fun _ => ⟨fun _ _ => step_of_inbox_cons, step_of_inbox_nil⟩

/-! ### No handler sees the events to come (R38) -/

theorem dispatch_takeEvent (W : Frame) (s : State) (rest : List Input) :
    dispatch W (s.takeEvent rest) = (dispatch W s).takeEvent rest := by
  unfold dispatch
  cases matchFrame W <;> rfl

theorem dispatchAll_takeEvent (Ws : List Frame) (s : State) (rest : List Input) :
    dispatchAll Ws (s.takeEvent rest) = (dispatchAll Ws s).takeEvent rest := by
  induction Ws generalizing s with
  | nil => rfl
  | cons W Ws ih => rw [dispatchAll_cons, dispatch_takeEvent, ih, dispatchAll_cons]

theorem State.idleControl_takeEvent (s : State) (rest : List Input) :
    (s.takeEvent rest).idleControl = s.idleControl.takeEvent rest := by
  unfold State.idleControl
  rw [State.takeEvent_buf]
  split <;> rfl

theorem rx_takeEvent (chunk : List Byte) (s : State) (rest : List Input) :
    rx chunk (s.takeEvent rest) = (rx chunk s).takeEvent rest := by
  have hwindows := dispatchAll_takeEvent (dispatchedWindows s chunk)
    { s with log := garbageLog s.log (discardedBytes s chunk) } rest
  rw [rx_eq_rxClosed, rx_eq_rxClosed, rxClosed, rxClosed, ← State.idleControl_takeEvent]
  exact congrArg (fun t : State => ({ t with buf := leftOver (alignedBytes s chunk) } : State).idleControl) hwindows

theorem tickRow_takeEvent (c : StateCode) (s : State) (rest : List Input) :
    tickRow c (s.takeEvent rest) = (tickRow c s).takeEvent rest := by
  unfold tickRow
  split_ifs <;> rfl

theorem stateTick_takeEvent (s : State) (rest : List Input) :
    stateTick (s.takeEvent rest) = (stateTick s).takeEvent rest := by
  unfold stateTick
  rw [State.takeEvent_tickArmed, State.takeEvent_devState, tickRow_takeEvent]
  split <;> rfl

theorem idleTimeout_takeEvent (s : State) (rest : List Input) :
    idleTimeout (s.takeEvent rest) = (idleTimeout s).takeEvent rest := by
  unfold idleTimeout
  rw [State.takeEvent_idleArmed]
  split <;> rfl

/-- Every handler ends in one state, whatever the list: it passes the list on and does not look at it. -/
theorem exists_exec_toInstr_takeEvent (e : Input) (s : State) :
    ∃ t : State, ∀ rest, exec e.toInstr (s.takeEvent rest) = .next (t.takeEvent rest) := by
  cases e with
  | rx chunk => exact ⟨rx chunk s, fun rest => congrArg _ (rx_takeEvent chunk s rest)⟩
  | idleTimeout => exact ⟨idleTimeout s, fun rest => congrArg _ (idleTimeout_takeEvent s rest)⟩
  | tick => exact ⟨stateTick s, fun rest => congrArg _ (stateTick_takeEvent s rest)⟩
  | reset => exact ⟨construct s, fun _ => rfl⟩
  | buildStatusQuery => exact ⟨s.codecReturn _, fun _ => rfl⟩
  | buildPowerCommand on => exact ⟨s.codecReturn _, fun _ => rfl⟩
  | buildStatusResponse c => exact ⟨s.codecReturn _, fun _ => rfl⟩
  | matchFrame W => exact ⟨s.codecReturn _, fun _ => rfl⟩

/-! ### Runs (R38) -/

/-- One step of any machine of the host's interface, and then the run that is left. -/
theorem run_succ_of_step {M : Host.Core} {s t : M.State} (n : Nat) (h : M.step s = .next t) :
    M.run (n + 1) s = M.run n t := by
  rw [Host.Core.run, h]

theorem execAll_cons_of_exec {i : Instr} {s t : State} (is : List Instr) (h : exec i s = .next t) :
    execAll (i :: is) s = execAll is t := by
  rw [execAll, h]

/-- Settles O38, by induction on the list: after its head, both runs go on from the same state but for the list. -/
theorem eventsRunInArrivalOrder : Obligations.EventsRunInArrivalOrder := by
  intro es
  induction es with
  | nil => exact fun s => ⟨s.takeEvent [], rfl, rfl⟩
  | cons e rest ih =>
    intro s
    obtain ⟨t, ht⟩ := exists_exec_toInstr_takeEvent e s
    obtain ⟨u, hrun, hall⟩ := ih t
    have hstep : step (s.takeEvent (e :: rest)) = .next (t.takeEvent rest) :=
      (step_of_inbox_cons rfl).trans (ht rest)
    exact ⟨u, (run_succ_of_step rest.length hstep).trans hrun, (execAll_cons_of_exec _ (ht [])).trans hall⟩

end Sys2Proof.Machine
end

