-- ==== Sys2Proof/Proofs/Encoding.lean ====
section
/-!
Decoding and encoding (`30_encoding.md` R50 to R61 and section 6). The decoder and the encoder determine each other on the
instructions that a table can give, `Instr.Decodable`: well-formedness but for the two checks no table makes, on byte 6 of
a response (entry 14) and on the length of a chunk (entry 3).
-/

namespace Sys2Proof

open Machine

/-! ### What each table can give, as a case principle -/

/-- Format FRAME_RX: a template gives its row, every other window `UNRECOGNIZED` (R52 to R54, R57, R58). -/
theorem decodeFrameRx_cases {P : Frame → Instr → Prop} (statusQuery : P rowStatusQuery.pattern .statusQuery)
    (powerOn : P rowPowerOn.pattern .powerOn) (powerOff : P rowPowerOff.pattern .powerOff)
    (unrecognized : ∀ W, matchFrame W = .unrecognized → P W (.unrecognized W)) (W : Frame) :
    P W (decodeFrameRx W) := by
  have hquery : rowStatusQuery.pattern = buildStatusQuery := by decide
  have hon : rowPowerOn.pattern = buildPowerCommand true := by decide
  have hoff : rowPowerOff.pattern = buildPowerCommand false := by decide
  unfold decodeFrameRx
  simp only [takes_iff_of_full_mask (r := rowStatusQuery) rfl, takes_iff_of_full_mask (r := rowPowerOn) rfl,
    takes_iff_of_full_mask (r := rowPowerOff) rfl]
  split_ifs with h1 h2 h3
  · exact h1 ▸ statusQuery
  · exact h2 ▸ powerOn
  · exact h3 ▸ powerOff
  · exact unrecognized W (by simp [matchFrame, ← hquery, ← hon, ← hoff, h1, h2, h3])

/-- Format BYTE_SCAN (R60). -/
theorem decodeByteScan_cases {P : Byte → Instr → Prop} (sof : P sofByte .sof)
    (garbageByte : ∀ b, b ≠ sofByte → P b (.garbageByte b)) (b : Byte) : P b (decodeByteScan b) := by
  unfold decodeByteScan
  split_ifs with h
  · exact h ▸ sof
  · exact garbageByte b h

/-- Format TICK: the five listed codes, and every code above them (R61). -/
theorem decodeTick_cases {P : StateCode → Instr → Prop} (standby : P 0x00#8 .tickStandby)
    (startup : P 0x01#8 .tickStartup) (startuplamp : P 0x02#8 .tickStartuplamp) (poweron : P 0x03#8 .tickPoweron)
    (cooling1 : P 0x04#8 .tickCooling1) (unlisted : ∀ c, 4 < c.toNat → P c (.tickDefault c)) (c : StateCode) :
    P c (decodeTick c) := by
  unfold decodeTick
  split_ifs with h0 h1 h2 h3 h4
  · exact h0 ▸ standby
  · exact h1 ▸ startup
  · exact h2 ▸ startuplamp
  · exact h3 ▸ poweron
  · exact h4 ▸ cooling1
  · exact unlisted c (four_lt_of_unlisted h0 h1 h2 h3 h4)

/-- The row of FRAME_TX takes the words that encode a response, whatever the two fields hold (R55). -/
theorem rowStatusResponse_takes_iff (W : Frame) :
    rowStatusResponse.takes W = true ↔ W.toList = (encode (.statusResponse W.b5 W.b6)).2 := by
  have hbyte (b : Byte) : b &&& 0xFF#8 = b := BitVec.and_allOnes
  have hrow : rowStatusResponse = ⟨⟨0xA9#8, 0x01#8, 0x02#8, 0x02#8, 0x00#8, 0x00#8, 0x00#8, 0x9A#8⟩,
      ⟨0xFF#8, 0xFF#8, 0xFF#8, 0xFF#8, 0xFF#8, 0x00#8, 0x00#8, 0xFF#8⟩⟩ := by decide
  simp [hrow, FrameRow.takes, Frame.toList, encode, hbyte, and_assoc]

/-! ### What the decoder reads under each format -/

theorem Frame.ofList?_eq_some_iff {bytes : List Byte} {W : Frame} :
    Frame.ofList? bytes = some W ↔ bytes = W.toList := by
  constructor
  · intro h
    unfold Frame.ofList? at h
    split at h <;> cases h
    rfl
  · rintro rfl
    rfl

theorem asFrame_eq_ok_iff {f : Format} {bytes : List Byte} {W : Frame} :
    asFrame f bytes = .ok W ↔ bytes = W.toList := by
  rw [← Frame.ofList?_eq_some_iff, asFrame]
  cases Frame.ofList? bytes <;> simp

theorem asByte_eq_ok_iff {f : Format} {bytes : List Byte} {b : Byte} : asByte f bytes = .ok b ↔ bytes = [b] := by
  unfold asByte
  split <;> simp_all

theorem asEmpty_eq_ok_iff {f : Format} {i j : Instr} {bytes : List Byte} :
    asEmpty f i bytes = .ok j ↔ bytes = [] ∧ j = i := by
  cases bytes <;> simp [asEmpty, eq_comm]

theorem asPowerArgument_eq_ok_iff {bytes : List Byte} {i : Instr} :
    asPowerArgument bytes = .ok i ↔
      ∃ on, bytes = (encode (.buildPowerCommand on)).2 ∧ i = .buildPowerCommand on := by
  constructor
  · intro h
    unfold asPowerArgument at h
    split at h
    · rename_i b hb
      obtain rfl := asByte_eq_ok_iff.1 hb
      split_ifs at h with h0 h1 <;> cases h
      · exact ⟨false, congrArg (fun b => [b]) h0, rfl⟩
      · exact ⟨true, congrArg (fun b => [b]) h1, rfl⟩
    · cases h
  · rintro ⟨on, rfl, rfl⟩
    cases on <;> rfl

theorem decode_frameRx_eq_ok_iff {bytes : List Byte} {i : Instr} :
    decode .frameRx bytes = .ok i ↔ ∃ W : Frame, bytes = W.toList ∧ i = decodeFrameRx W := by
  simp only [← asFrame_eq_ok_iff (f := .frameRx), decode]
  cases asFrame .frameRx bytes <;> simp [eq_comm]

theorem decode_codecOpMatch_eq_ok_iff {bytes : List Byte} {i : Instr} :
    decode .codecOpMatch bytes = .ok i ↔ ∃ W : Frame, bytes = W.toList ∧ i = .matchFrame W := by
  simp only [← asFrame_eq_ok_iff (f := .codecOpMatch), decode]
  cases asFrame .codecOpMatch bytes <;> simp [eq_comm]

theorem decode_byteScan_eq_ok_iff {bytes : List Byte} {i : Instr} :
    decode .byteScan bytes = .ok i ↔ ∃ b, bytes = [b] ∧ i = decodeByteScan b := by
  simp only [← asByte_eq_ok_iff (f := .byteScan), decode]
  cases asByte .byteScan bytes <;> simp [eq_comm]

theorem decode_tick_eq_ok_iff {bytes : List Byte} {i : Instr} :
    decode .tick bytes = .ok i ↔ ∃ c, bytes = [c] ∧ i = decodeTick c := by
  simp only [← asByte_eq_ok_iff (f := .tick), decode]
  cases asByte .tick bytes <;> simp [eq_comm]

theorem decode_frameTx_of_takes {W : Frame} (h : rowStatusResponse.takes W = true) :
    decode .frameTx W.toList = .ok (.statusResponse W.b5 W.b6) := by
  simp [decode, asFrame_eq_ok_iff.2 rfl, decodeFrameTx, h]

/-- FRAME_TX reads the encodings of responses and nothing else (R55). -/
theorem decode_frameTx_eq_ok_iff {bytes : List Byte} {i : Instr} :
    decode .frameTx bytes = .ok i ↔
      ∃ ss cc, bytes = (encode (.statusResponse ss cc)).2 ∧ i = .statusResponse ss cc := by
  constructor
  · intro h
    cases hbytes : asFrame .frameTx bytes with
    | error e => simp [decode, hbytes] at h
    | ok W =>
      obtain rfl := asFrame_eq_ok_iff.1 hbytes
      cases htakes : rowStatusResponse.takes W with
      | false => simp [decode, hbytes, decodeFrameTx, htakes] at h
      | true =>
        have hi := Except.ok.inj (h.symm.trans (decode_frameTx_of_takes htakes))
        exact ⟨W.b5, W.b6, (rowStatusResponse_takes_iff W).1 htakes, hi⟩
  · rintro ⟨ss, cc, rfl, rfl⟩
    exact decode_frameTx_of_takes (W := ⟨0xA9#8, 0x01#8, 0x02#8, 0x02#8, 0x00#8, ss, cc, 0x9A#8⟩)
      ((rowStatusResponse_takes_iff _).2 rfl)

/-! ### The instructions that a table can give -/

/-- The checks of well-formedness that the order of a table's rows makes (R58, R60, R61). -/
def Instr.Decodable : Instr → Prop
  | .unrecognized W => Machine.matchFrame W = .unrecognized
  | .garbageByte b => b ≠ sofByte
  | .tickDefault c => 4 < c.toNat
  | _ => True

/-- What a table gives is well-formed but for the two checks that none makes (entries 3 and 14). -/
theorem Instr.Decodable.wellFormed_or {i : Instr} (h : i.Decodable) (p : Params) :
    i.WellFormed p ∨ (∃ ss cc, i = .statusResponse ss cc ∧ cc ≠ (0x03#8 ||| ss)) ∨
      ∃ chunk n, i = .rx chunk ∧ p.maxChunk = some n ∧ n < chunk.length := by
  cases i with
  | unrecognized W => exact .inl (beq_iff_eq.2 h)
  | garbageByte b => exact .inl (bne_iff_ne.2 h)
  | tickDefault c => exact .inl (decide_eq_true h)
  | statusResponse ss cc =>
    by_cases hcc : cc = 0x03#8 ||| ss
    · exact .inl (beq_iff_eq.2 hcc)
    · exact .inr (.inl ⟨ss, cc, rfl, hcc⟩)
  | rx chunk =>
    cases hmax : p.maxChunk with
    | none => exact .inl (by simp [Instr.WellFormed, Instr.wellFormed, chunkAdmitted, hmax])
    | some n =>
      rcases Nat.lt_or_ge n chunk.length with hlong | hshort
      · exact .inr (.inr ⟨chunk, n, rfl, rfl, hlong⟩)
      · exact .inl (by simp [Instr.WellFormed, Instr.wellFormed, chunkAdmitted, hmax, hshort])
  | _ => exact .inl rfl

theorem Instr.WellFormed.decodable {p : Params} {i : Instr} (h : i.WellFormed p) : i.Decodable := by
  cases i with
  | unrecognized W => exact beq_iff_eq.1 h
  | garbageByte b => exact bne_iff_ne.1 h
  | tickDefault c => exact of_decide_eq_true (p := 4 < c.toNat) h
  | _ => trivial

/-! ### The tables and the encoder determine each other -/

theorem encode_decodeFrameRx (W : Frame) :
    encode (decodeFrameRx W) = (.frameRx, W.toList) ∧ (decodeFrameRx W).Decodable :=
  decodeFrameRx_cases (P := fun W i => encode i = (.frameRx, W.toList) ∧ i.Decodable)
    ⟨rfl, trivial⟩ ⟨rfl, trivial⟩ ⟨rfl, trivial⟩ (fun _ h => ⟨rfl, h⟩) W

theorem encode_decodeByteScan (b : Byte) :
    encode (decodeByteScan b) = (.byteScan, [b]) ∧ (decodeByteScan b).Decodable :=
  decodeByteScan_cases (P := fun b i => encode i = (.byteScan, [b]) ∧ i.Decodable)
    ⟨rfl, trivial⟩ (fun _ h => ⟨rfl, h⟩) b

theorem encode_decodeTick (c : StateCode) : encode (decodeTick c) = (.tick, [c]) ∧ (decodeTick c).Decodable :=
  decodeTick_cases (P := fun c i => encode i = (.tick, [c]) ∧ i.Decodable)
    ⟨rfl, trivial⟩ ⟨rfl, trivial⟩ ⟨rfl, trivial⟩ ⟨rfl, trivial⟩ ⟨rfl, trivial⟩ (fun _ h => ⟨rfl, h⟩) c

theorem decodeFrameRx_of_unrecognized {W : Frame} (h : matchFrame W = .unrecognized) :
    decodeFrameRx W = .unrecognized W :=
  decodeFrameRx_cases (P := fun W i => matchFrame W = .unrecognized → i = .unrecognized W)
    (fun h => absurd h (by decide)) (fun h => absurd h (by decide)) (fun h => absurd h (by decide))
    (fun _ _ _ => rfl) W h

theorem decodeByteScan_of_ne {b : Byte} (h : b ≠ sofByte) : decodeByteScan b = .garbageByte b := if_neg h

theorem decodeTick_of_four_lt {c : StateCode} (h : 4 < c.toNat) : decodeTick c = .tickDefault c :=
  decodeTick_cases (P := fun c i => 4 < c.toNat → i = .tickDefault c)
    (fun h => absurd h (by decide)) (fun h => absurd h (by decide)) (fun h => absurd h (by decide))
    (fun h => absurd h (by decide)) (fun h => absurd h (by decide)) (fun _ _ _ => rfl) c h

/-- Every row reads its own encoding back, where no earlier row of its format takes it. -/
theorem decode_encode {i : Instr} (h : i.Decodable) : decode (encode i).1 (encode i).2 = .ok i := by
  cases i with
  | unrecognized W => exact decode_frameRx_eq_ok_iff.2 ⟨W, rfl, (decodeFrameRx_of_unrecognized h).symm⟩
  | statusResponse ss cc => exact decode_frameTx_eq_ok_iff.2 ⟨ss, cc, rfl, rfl⟩
  | garbageByte b => exact decode_byteScan_eq_ok_iff.2 ⟨b, rfl, (decodeByteScan_of_ne h).symm⟩
  | tickDefault c => exact decode_tick_eq_ok_iff.2 ⟨c, rfl, (decodeTick_of_four_lt h).symm⟩
  | buildPowerCommand on => exact asPowerArgument_eq_ok_iff.2 ⟨on, rfl, rfl⟩
  | _ => rfl

/-- What is read encodes back, and is an instruction that a table can give. -/
theorem encode_of_decode {f : Format} {bytes : List Byte} {i : Instr} (h : decode f bytes = .ok i) :
    encode i = (f, bytes) ∧ i.Decodable := by
  cases f with
  | frameRx =>
    obtain ⟨W, rfl, rfl⟩ := decode_frameRx_eq_ok_iff.1 h
    exact encode_decodeFrameRx W
  | frameTx =>
    obtain ⟨ss, cc, rfl, rfl⟩ := decode_frameTx_eq_ok_iff.1 h
    exact ⟨rfl, trivial⟩
  | byteScan =>
    obtain ⟨b, rfl, rfl⟩ := decode_byteScan_eq_ok_iff.1 h
    exact encode_decodeByteScan b
  | tick =>
    obtain ⟨c, rfl, rfl⟩ := decode_tick_eq_ok_iff.1 h
    exact encode_decodeTick c
  | eventRx =>
    cases h
    exact ⟨rfl, trivial⟩
  | codecOpBuildPwr =>
    obtain ⟨on, rfl, rfl⟩ := asPowerArgument_eq_ok_iff.1 h
    exact ⟨rfl, trivial⟩
  | codecOpMatch =>
    obtain ⟨W, rfl, rfl⟩ := decode_codecOpMatch_eq_ok_iff.1 h
    exact ⟨rfl, trivial⟩
  | eventIdleTimeout | eventTick | eventReset | codecOpBuildSq =>
    obtain ⟨rfl, rfl⟩ := asEmpty_eq_ok_iff.1 h
    exact ⟨rfl, trivial⟩

/-- Settles O48: well-formedness makes every check of the tables. -/
theorem decodeOfEncode : Obligations.DecodeOfEncode := fun _ _ h => decode_encode h.decodable

/-- Settles O49: of well-formedness, only the checks that no table makes can fail. -/
theorem encodeOfDecode : Obligations.EncodeOfDecode := by
  intro p f bytes i h
  obtain ⟨hencode, hdecodable⟩ := encode_of_decode h
  exact ⟨hencode, hdecodable.wellFormed_or p⟩

/-- Settles O51: each word is the encoding of its instruction. -/
theorem writtenOutWordsDecode : Obligations.WrittenOutWordsDecode :=
  ⟨decode_encode (i := .statusQuery) trivial, decode_encode (i := .powerOn) trivial,
   decode_encode (i := .powerOff) trivial, decode_encode (i := .statusResponse 0x04#8 0x07#8) trivial,
   decode_encode (i := .sof) trivial, decode_encode (i := .tickPoweron) trivial,
   decode_encode (i := .tickDefault 0x05#8) (by decide : 4 < (0x05#8 : StateCode).toNat)⟩

end Sys2Proof
end

