-- ==== Sys2Proof/Proofs/TableWords.lean ====
section
/-!
What the rows that a table word decodes to do (`30_encoding.md` section 6): the rows of BYTE_SCAN and TICK, a run of
FRAME_RX windows arriving on an empty buffer, and the step after `withFetchWord` (entries 15 and 16).
-/

namespace Sys2Proof.Machine

/-! ### The rows of BYTE_SCAN and TICK -/

/-- The discard of the one byte at the front (R83). -/
theorem garbageByte_of_cons {s : State} {b : Byte} {rest : List Byte} (h : s.buf = b :: rest) :
    garbageByte b s = { s with buf := rest, log := s.log ++ [.garbage [b]] } := by
  simp [garbageByte, State.discardFront_eq, h, garbageLog]

theorem garbageByte_of_head_ne {s : State} {b : Byte} (h : s.buf.head? ≠ some b) : garbageByte b s = s := if_neg h

/-- Settles O20: `SOF` is the identity, and the two branches of `GARBAGE_BYTE`. -/
theorem byteScanRows : Obligations.ByteScanRows := fun _ =>
  ⟨rfl, fun _ _ h => congrArg Host.Outcome.next (garbageByte_of_cons h),
   fun _ h => congrArg Host.Outcome.next (garbageByte_of_head_ne h)⟩

/-- A code above the listed ones takes the default row (R116). -/
theorem tickRow_of_four_lt {c : StateCode} (h : 4 < c.toNat) (s : State) : tickRow c s = tickDefault c s := by
  have hne (d : StateCode) (hd : d.toNat ≤ 4) : c ≠ d := by
    rintro rfl
    omega
  simp [tickRow, DeviceState.code, hne]

/-- The row that the table's TICK rows decode to is the row that the transition table selects (R61, R110). -/
theorem exec_decodeTick (c : StateCode) (s : State) : exec (decodeTick c) s = .next (tickRow c s) := by
  have hdefault (c : StateCode) (h : 4 < c.toNat) : exec (.tickDefault c) s = .next (tickRow c s) :=
    congrArg Host.Outcome.next (tickRow_of_four_lt h s).symm
  exact decodeTick_cases (P := fun c i => exec i s = .next (tickRow c s)) rfl rfl rfl rfl rfl hdefault c

/-! ### Whole windows on an empty buffer (R85, R89) -/

/-- The run of decoded windows dispatches them front to back (R100, R107). -/
theorem execAll_map_decodeFrameRx (Ws : List Frame) (s : State) :
    execAll (Ws.map decodeFrameRx) s = .next (dispatchAll Ws s) := by
  induction Ws generalizing s with
  | nil => rfl
  | cons W Ws ih => rw [List.map_cons, execAll_cons_of_exec _ (exec_decodeFrameRx W s), ih, dispatchAll_cons]

theorem windowsOf_flatMap_toList (Ws : List Frame) : windowsOf (Ws.flatMap Frame.toList) = Ws := by
  induction Ws with
  | nil => rfl
  | cons W Ws ih => exact congrArg (W :: ·) ih

theorem leftOver_flatMap_toList (Ws : List Frame) : leftOver (Ws.flatMap Frame.toList) = [] := by
  have hlen : (Ws.flatMap Frame.toList).length % 8 = 0 := by simp [Frame.toList]
  exact List.eq_nil_of_length_eq_zero ((leftOver_length _).trans hlen)

/-- On an empty buffer a chunk that begins with 0xA9 is aligned as it stands, and nothing is discarded (R82, R83). -/
theorem framing_of_marker_head {s : State} {chunk : List Byte} (hbuf : s.buf = [])
    (hhead : chunk.head? = some sofByte) : alignedBytes s chunk = chunk ∧ discardedBytes s chunk = [] := by
  obtain ⟨rest, rfl⟩ := List.head?_eq_some_iff.1 hhead
  simp [alignedBytes, discardedBytes, hbuf, findSof]

/-- Whole windows, the first of them beginning with 0xA9, are dispatched and leave nothing (R87, R89). -/
theorem rx_flatMap_toList {s : State} {Ws : List Frame} (hbuf : s.buf = [])
    (hhead : (Ws.flatMap Frame.toList).head? = some sofByte) :
    rx (Ws.flatMap Frame.toList) s = (dispatchAll Ws s).timerStop .idle := by
  obtain ⟨haligned, hdiscarded⟩ := framing_of_marker_head hbuf hhead
  have hempty : ({ dispatchAll Ws s with buf := [] } : State) = dispatchAll Ws s := by
    rw [← dispatchAll_with_buf, ← hbuf]
  rw [rx_eq_rxClosed, rxClosed, dispatchedWindows, haligned, hdiscarded, garbageLog_nil, windowsOf_flatMap_toList,
    leftOver_flatMap_toList, hempty, State.idleControl, dispatchAll_buf, hbuf]
  rfl

/-! ### The windows of `windowChunk` (entry 16) -/

/-- The windows a staged window arrives in: itself, behind the alignment window where it does not begin with 0xA9. -/
def stagedWindows (W : Frame) : List Frame := (if W.b0 = sofByte then [] else [alignmentWindow]) ++ [W]

theorem windowChunk_eq_flatMap (W : Frame) : windowChunk W = (stagedWindows W).flatMap Frame.toList := by
  unfold windowChunk stagedWindows
  split <;> simp

theorem windowChunk_head (W : Frame) : (windowChunk W).head? = some sofByte := by
  unfold windowChunk
  split
  · next h => exact congrArg some h
  · rfl

theorem rx_windowChunk {s : State} (hbuf : s.buf = []) (W : Frame) :
    rx (windowChunk W) s = (dispatchAll (stagedWindows W) s).timerStop .idle := by
  have hhead := windowChunk_head W
  rw [windowChunk_eq_flatMap] at hhead ⊢
  exact rx_flatMap_toList hbuf hhead

/-- The alignment window is equal to no template (R58). -/
theorem map_decodeFrameRx_stagedWindows (W : Frame) :
    (stagedWindows W).map decodeFrameRx =
      (if W.b0 = sofByte then [] else [.unrecognized alignmentWindow]) ++ [decodeFrameRx W] := by
  have halignment : decodeFrameRx alignmentWindow = .unrecognized alignmentWindow :=
    decodeFrameRx_of_unrecognized (by decide)
  unfold stagedWindows
  split <;> simp [halignment]

/-! ### What is staged for a decoded row (entry 16) -/

theorem stage_decodeFrameRx (W : Frame) (s : State) : s.stage (decodeFrameRx W) = s.offerChunk (windowChunk W) :=
  decodeFrameRx_cases (P := fun W i => s.stage i = s.offerChunk (windowChunk W)) rfl rfl rfl (fun _ _ => rfl) W

theorem stage_decodeByteScan (b : Byte) (s : State) : s.stage (decodeByteScan b) = s.offerChunk [b] :=
  decodeByteScan_cases (P := fun b i => s.stage i = s.offerChunk [b]) rfl (fun _ _ => rfl) b

theorem stage_decodeTick (c : StateCode) (s : State) : s.stage (decodeTick c) = s.offerTick c :=
  decodeTick_cases (P := fun c i => s.stage i = s.offerTick c) rfl rfl rfl rfl rfl (fun _ _ => rfl) c

/-- The offered input is the one the next step takes, and nothing of the offer is left. -/
theorem step_offer (s : State) (e : Input) : step (s.offer e) = exec e.toInstr s := rfl

theorem step_offerChunk (s : State) (chunk : List Byte) :
    step (s.offerChunk chunk) = .next (rx chunk { s with buf := [] }) := rfl

theorem step_offerTick (s : State) (c : StateCode) :
    step (s.offerTick c) = .next (tickRow c { s with devState := c, tickArmed := true }) := rfl

/-! ### Which row a table word decodes to (entry 15) -/

theorem decode?_of_decode {f : Format} {bytes : List Byte} {i : Instr} (h : decode f bytes = .ok i) :
    decode? f bytes = some i := by
  rw [decode?, h]

theorem decodeTableWord_frame (v : BitVec 64) :
    decodeTableWord 64 v.toNat = decode? (frameFormat (.ofBits v)) (Frame.ofBits v).toList := by
  simp [decodeTableWord]

theorem decodeTableWord_byte (b : Byte) : decodeTableWord 8 b.toNat = decode? (byteFormat b) [b] := by
  simp [decodeTableWord]

theorem withFetchWord_eq_stage {s : State} {nbits w : Nat} {i : Instr} (h : decodeTableWord nbits w = some i) :
    s.withFetchWord nbits w = s.stage i := by
  rw [State.withFetchWord, h]

theorem withFetchWord_of_response {v : BitVec 64} (h : rowStatusResponse.takes (.ofBits v) = true) (s : State) :
    s.withFetchWord 64 v.toNat = s.stage (.statusResponse (Frame.ofBits v).b5 (Frame.ofBits v).b6) := by
  refine withFetchWord_eq_stage ((decodeTableWord_frame v).trans ?_)
  rw [frameFormat, if_pos h]
  exact decode?_of_decode (decode_frameTx_of_takes h)

theorem withFetchWord_of_window {v : BitVec 64} (h : rowStatusResponse.takes (.ofBits v) = false) (s : State) :
    s.withFetchWord 64 v.toNat = s.stage (decodeFrameRx (.ofBits v)) := by
  refine withFetchWord_eq_stage ((decodeTableWord_frame v).trans ?_)
  rw [frameFormat, if_neg (by simp [h])]
  exact decode?_of_decode (decode_frameRx_eq_ok_iff.2 ⟨_, rfl, rfl⟩)

theorem withFetchWord_of_stateCode {b : Byte} (h : b.toNat ≤ 8) (s : State) :
    s.withFetchWord 8 b.toNat = s.stage (decodeTick b) := by
  refine withFetchWord_eq_stage ((decodeTableWord_byte b).trans ?_)
  rw [byteFormat, if_pos h]
  exact decode?_of_decode (decode_tick_eq_ok_iff.2 ⟨b, rfl, rfl⟩)

theorem withFetchWord_of_scannedByte {b : Byte} (h : 8 < b.toNat) (s : State) :
    s.withFetchWord 8 b.toNat = s.stage (decodeByteScan b) := by
  refine withFetchWord_eq_stage ((decodeTableWord_byte b).trans ?_)
  rw [byteFormat, if_neg h.not_ge]
  exact decode?_of_decode (decode_byteScan_eq_ok_iff.2 ⟨b, rfl, rfl⟩)

/-! ### The step after `withFetchWord` -/

/-- A staged window runs, behind its alignment window, as the row it decodes to, and the idle timer stops (R87). -/
theorem step_stage_decodeFrameRx (W : Frame) (s : State) :
    ∃ u, execAll ((if W.b0 = sofByte then [] else [.unrecognized alignmentWindow]) ++ [decodeFrameRx W])
        { s with buf := [] } = .next u ∧
      step (s.stage (decodeFrameRx W)) = .next (u.timerStop .idle) := by
  refine ⟨dispatchAll (stagedWindows W) { s with buf := [] }, ?_, ?_⟩
  · rw [← map_decodeFrameRx_stagedWindows, execAll_map_decodeFrameRx]
  · rw [stage_decodeFrameRx, step_offerChunk, rx_windowChunk rfl]

/-- Settles O52: the row that the word decodes to, what is staged for it, and the step that takes it. -/
theorem stagedTableWordsRun : Obligations.StagedTableWordsRun := by
  refine ⟨fun s v h => ?_, fun s v h => ?_, fun s b h => ?_, fun s b h => ?_⟩
  · rw [withFetchWord_of_response h]
    exact step_offer s _
  · rw [withFetchWord_of_window h]
    exact step_stage_decodeFrameRx _ s
  · rw [withFetchWord_of_stateCode h, stage_decodeTick, step_offerTick, exec_decodeTick]
  · rw [withFetchWord_of_scannedByte h, stage_decodeByteScan]
    exact step_offerChunk s [b]

end Sys2Proof.Machine
end

