-- ==== Sys2Proof/Proofs/CodecFrames.lean ====
section
/-!
The Codec (`40_codec.md` R70 to R77). The matcher is inverse to `Verdict.template?`, the template that a verdict names;
exact comparison and the round trips follow from that. A response differs from every template in byte 3.
-/

namespace Sys2Proof

/-- Windows of the same 64-bit value are equal (R8). -/
theorem Frame.toBits_injective : Function.Injective Frame.toBits :=
  Function.LeftInverse.injective Frame.ofBits_toBits

/-- The OR of bytes 1 to 5 (R5). -/
def Frame.payloadOr (F : Frame) : Byte := F.b1 ||| F.b2 ||| F.b3 ||| F.b4 ||| F.b5

namespace Machine

/-! ### The builders (R70 to R72) -/

/-- Byte 5 of a response is its state code. -/
theorem buildStatusResponse_injective : Function.Injective buildStatusResponse :=
  fun _ _ h => congrArg Frame.b5 h

/-- The two power commands differ in byte 2 only (R71). -/
theorem buildPowerCommand_eq (on : Bool) : buildPowerCommand on =
    ⟨0xA9#8, 0x17#8, if on then 0x2E#8 else 0x2F#8, 0x00#8, 0x00#8, 0x00#8, 0x3F#8, 0x9A#8⟩ := by
  cases on <;> rfl

/-- Settles O9: the bytes are those of the builders' definitions, and byte 5 gives the state code back. -/
theorem buildersReturnTheTemplates : Obligations.BuildersReturnTheTemplates :=
  ⟨rfl, buildPowerCommand_eq true, buildPowerCommand_eq false, fun _ => rfl,
   fun _ _ h => buildStatusResponse_injective h⟩

/-! ### The matcher (R73) -/

/-- The four answers of the matcher, each with the windows that have it. -/
theorem matchFrame_cases {P : Frame → Verdict → Prop} (statusQuery : P buildStatusQuery .statusQuery)
    (powerOn : P (buildPowerCommand true) .powerOn) (powerOff : P (buildPowerCommand false) .powerOff)
    (unrecognized : ∀ W, W ≠ buildStatusQuery → W ≠ buildPowerCommand true → W ≠ buildPowerCommand false →
      P W .unrecognized) (W : Frame) : P W (matchFrame W) := by
  unfold matchFrame
  split_ifs with hquery hon hoff
  · exact hquery ▸ statusQuery
  · exact hon ▸ powerOn
  · exact hoff ▸ powerOff
  · exact unrecognized W hquery hon hoff

theorem matchFrame_eq_unrecognized_iff {W : Frame} :
    matchFrame W = .unrecognized ↔
      W ≠ buildStatusQuery ∧ W ≠ buildPowerCommand true ∧ W ≠ buildPowerCommand false :=
  matchFrame_cases
    (P := fun W v => v = .unrecognized ↔
      W ≠ buildStatusQuery ∧ W ≠ buildPowerCommand true ∧ W ≠ buildPowerCommand false)
    (by decide) (by decide) (by decide) (fun _ hquery hon hoff => iff_of_true rfl ⟨hquery, hon, hoff⟩) W

/-- The template that a verdict names; `unrecognized` names none. -/
def Verdict.template? : Verdict → Option Frame
  | .statusQuery => some buildStatusQuery
  | .powerOn => some (buildPowerCommand true)
  | .powerOff => some (buildPowerCommand false)
  | .unrecognized => none

theorem matchFrame_of_template? {v : Verdict} {F : Frame} (h : v.template? = some F) : matchFrame F = v := by
  cases v with
  | unrecognized => cases h
  | _ => cases h; rfl

theorem eq_of_template?_matchFrame {W F : Frame} : (matchFrame W).template? = some F → W = F :=
  matchFrame_cases (P := fun W v => v.template? = some F → W = F)
    Option.some.inj Option.some.inj Option.some.inj (fun _ _ _ _ h => nomatch h) W

/-- A verdict that names a template is the verdict of that window and of no other. -/
theorem matchFrame_eq_iff {v : Verdict} {F : Frame} (h : v.template? = some F) (W : Frame) :
    matchFrame W = v ↔ W = F :=
  ⟨fun hv => eq_of_template?_matchFrame (hv ▸ h), fun hW => hW ▸ matchFrame_of_template? h⟩

/-- The words of R52 to R54. -/
theorem buildStatusQuery_toBits : buildStatusQuery.toBits = 0xA90102010000039A#64 := by decide

theorem buildPowerCommand_true_toBits : (buildPowerCommand true).toBits = 0xA9172E0000003F9A#64 := by decide

theorem buildPowerCommand_false_toBits : (buildPowerCommand false).toBits = 0xA9172F0000003F9A#64 := by decide

/-- Settles O10: each command verdict has its template, and the 64-bit value of a window determines it. -/
theorem matchFrameComparesAllEightBytes : Obligations.MatchFrameComparesAllEightBytes := by
  intro W
  refine ⟨matchFrame_eq_iff rfl W, matchFrame_eq_iff rfl W, matchFrame_eq_iff rfl W, ?_⟩
  rw [matchFrame_eq_unrecognized_iff, Frame.toBits_injective.ne_iff' buildStatusQuery_toBits,
    Frame.toBits_injective.ne_iff' buildPowerCommand_true_toBits,
    Frame.toBits_injective.ne_iff' buildPowerCommand_false_toBits]

/-! ### The Codec rows (R75) -/

/-- Settles O11: every Codec row is one `State.codecReturn` of its value. -/
theorem codecOperationsReturnAndTouchNothingElse : Obligations.CodecOperationsReturnAndTouchNothingElse := by
  intro s
  refine ⟨rfl, fun on => ?_, fun _ _ => rfl, fun _ => rfl⟩
  have hrow : exec (.buildPowerCommand on) s = .next (s.codecReturn (.frame (buildPowerCommand on))) := rfl
  rw [hrow, buildPowerCommand_eq]
  rfl

/-! ### The round trips (R77) -/

/-- Byte 3 of a response is 02, of a template 01 or 00. -/
@[simp] theorem matchFrame_buildStatusResponse (s : StateCode) :
    matchFrame (buildStatusResponse s) = .unrecognized := by
  have hne {F : Frame} (h : 0x02#8 ≠ F.b3) : buildStatusResponse s ≠ F := ne_of_apply_ne Frame.b3 h
  exact matchFrame_eq_unrecognized_iff.2 ⟨hne (by decide), hne (by decide), hne (by decide)⟩

/-- Settles O12: a template is matched as the command that it names, and a response as none. -/
theorem codecRoundTrips : Obligations.CodecRoundTrips :=
  ⟨matchFrame_of_template? rfl, matchFrame_of_template? rfl, matchFrame_of_template? rfl,
   fun s => ⟨matchFrame_buildStatusResponse s, rfl, rfl, rfl⟩⟩

/-! ### Byte 6 (R5, R76) -/

theorem buildStatusQuery_b6 : buildStatusQuery.b6 = buildStatusQuery.payloadOr := by decide

theorem buildPowerCommand_b6 (on : Bool) : (buildPowerCommand on).b6 = (buildPowerCommand on).payloadOr := by
  cases on <;> decide

/-- Bytes 1 to 4 of a response put together are 03. -/
theorem buildStatusResponse_b6 (s : StateCode) : (buildStatusResponse s).b6 = (buildStatusResponse s).payloadOr := by
  have hhead : 0x01#8 ||| 0x02#8 ||| 0x02#8 ||| 0x00#8 = 0x03#8 := by decide
  exact congrArg (· ||| s) hhead.symm

/-- OR distributes over AND, bit by bit. -/
theorem bitVec_or_and_distrib_right {w : Nat} (x y z : BitVec w) : (x &&& y) ||| z = (x ||| z) &&& (y ||| z) :=
  BitVec.eq_of_getElem_eq fun i hi => by
    simp only [BitVec.getElem_or, BitVec.getElem_and]
    exact Bool.or_and_distrib_right x[i] y[i] z[i]

/-- OR with 03 sets the two low bits and leaves the six others. -/
theorem three_or_eq (s : StateCode) : 0x03#8 ||| s = (s &&& 0xFC#8) ||| 0x03#8 := by
  have hmask : 0xFC#8 ||| 0x03#8 = BitVec.allOnes 8 := by decide
  rw [bitVec_or_and_distrib_right, hmask, BitVec.and_allOnes, BitVec.or_comm]

/-- Settles O13: one lemma for each builder. -/
theorem checksumByteIsTheOrOfThePayload : Obligations.ChecksumByteIsTheOrOfThePayload := by
  refine ⟨three_or_eq, fun F hF => ?_⟩
  rcases hF with rfl | ⟨on, rfl⟩ | ⟨s, rfl⟩
  · exact buildStatusQuery_b6
  · exact buildPowerCommand_b6 on
  · exact buildStatusResponse_b6 s

end Machine

end Sys2Proof
end

