-- ==== Sys2Proof/Proofs/Framing.lean ====
section
/-!
The receive handler (`41_framing.md` R80 to R93, R96): a byte string splits at its first marker, and the aligned part into
whole windows and a rest. The marker search, the framing loop and the streaming realisation are reduced to these two cuts.
-/

namespace Sys2Proof.Machine

/-! ### The split at the first marker (R82, R83) -/

/-- No byte is 0xA9. -/
def Markerless (l : List Byte) : Prop := ∀ b ∈ l, b ≠ sofByte

/-- Nothing stands before the first 0xA9, for it stands first, or there are no bytes. -/
def Aligned (l : List Byte) : Prop := l = [] ∨ l.head? = some sofByte

/-- The bytes before the first 0xA9; all of them where there is none. -/
def beforeMarker (l : List Byte) : List Byte := l.takeWhile (· != sofByte)

/-- The bytes from the first 0xA9 on; none where there is none. -/
def fromMarker (l : List Byte) : List Byte := l.dropWhile (· != sofByte)

theorem Markerless.bne {l : List Byte} (h : Markerless l) : ∀ b ∈ l, (b != sofByte) = true :=
  fun b hb => bne_iff_ne.2 (h b hb)

theorem markerless_beforeMarker (l : List Byte) : Markerless (beforeMarker l) :=
  fun _ hb => bne_iff_ne.1 (List.mem_takeWhile_imp (p := (· != sofByte)) hb)

@[simp] theorem beforeMarker_append_fromMarker (l : List Byte) : beforeMarker l ++ fromMarker l = l :=
  List.takeWhile_append_dropWhile

theorem fromMarker_eq_nil_iff {l : List Byte} : fromMarker l = [] ↔ Markerless l := by
  simp [fromMarker, Markerless, List.dropWhile_eq_nil_iff]

theorem fromMarker_of_aligned {l : List Byte} (h : Aligned l) : fromMarker l = l := by
  rcases h with rfl | hhead
  · rfl
  · obtain ⟨rest, rfl⟩ := List.head?_eq_some_iff.1 hhead
    rfl

theorem beforeMarker_of_aligned {l : List Byte} (h : Aligned l) : beforeMarker l = [] := by
  have hsplit := beforeMarker_append_fromMarker l
  rwa [fromMarker_of_aligned h, List.append_left_eq_self] at hsplit

/-- Bytes without 0xA9 are passed over. -/
theorem fromMarker_append_of_markerless {g : List Byte} (hg : Markerless g) (l : List Byte) :
    fromMarker (g ++ l) = fromMarker l := List.dropWhile_append_of_pos hg.bne

/-- Behind a 0xA9 the bytes that follow make no difference to where it stands. -/
theorem fromMarker_append_of_ne_nil {l : List Byte} (h : fromMarker l ≠ []) (m : List Byte) :
    fromMarker (l ++ m) = fromMarker l ++ m := by
  rw [fromMarker, List.dropWhile_append, if_neg (by simpa [fromMarker] using h)]
  rfl

/-- The split is the only one into bytes without 0xA9 and aligned bytes. -/
theorem markerSplit_append {g r : List Byte} (hg : Markerless g) (hr : Aligned r) :
    beforeMarker (g ++ r) = g ∧ fromMarker (g ++ r) = r := by
  constructor
  · rw [beforeMarker, List.takeWhile_append_of_pos hg.bne, ← beforeMarker, beforeMarker_of_aligned hr,
      List.append_nil]
  · rw [fromMarker_append_of_markerless hg, fromMarker_of_aligned hr]

/-- What the framing of an `RX` works on and what it discards are the two sides of the split (R83, R89). -/
theorem framing_eq_markerSplit (s : State) (chunk : List Byte) :
    discardedBytes s chunk = beforeMarker (s.buf ++ chunk) ∧ alignedBytes s chunk = fromMarker (s.buf ++ chunk) := by
  unfold discardedBytes alignedBytes
  cases hfind : findSof (s.buf ++ chunk) with
  | none =>
    have hsplit := markerSplit_append ((findSof_eq_none_iff _).1 hfind) (.inl rfl)
    rw [List.append_nil] at hsplit
    exact ⟨hsplit.1.symm, hsplit.2.symm⟩
  | some i =>
    obtain ⟨pre, post, hbytes, rfl, hpre⟩ := (findSof_eq_some_iff _ _).1 hfind
    have hsplit := markerSplit_append (r := sofByte :: post) hpre (.inr rfl)
    rw [hbytes, hsplit.1, hsplit.2]
    exact ⟨List.take_left, List.drop_left⟩

theorem alignedBytes_eq_fromMarker (s : State) (chunk : List Byte) :
    alignedBytes s chunk = fromMarker (s.buf ++ chunk) := (framing_eq_markerSplit s chunk).2

theorem discardedBytes_eq_beforeMarker (s : State) (chunk : List Byte) :
    discardedBytes s chunk = beforeMarker (s.buf ++ chunk) := (framing_eq_markerSplit s chunk).1

/-- The marker search replaces `BUF` by its aligned part, and logs the other. -/
theorem markerSearch_eq_markerSplit (s : State) :
    s.markerSearch = { s with buf := fromMarker s.buf, log := garbageLog s.log (beforeMarker s.buf) } := by
  have h := append_markerSearch_eq [] s
  rw [alignedBytes_eq_fromMarker, discardedBytes_eq_beforeMarker] at h
  simpa [State.append] using h

/-! ### The run of the scanned bytes (R60, R82, R83) -/

theorem exec_decodeByteScan_of_cons {s : State} {b : Byte} {rest : List Byte} (hb : b ≠ sofByte)
    (h : s.buf = b :: rest) :
    exec (decodeByteScan b) s = .next { s with buf := rest, log := s.log ++ [.garbage [b]] } := by
  have hrow : decodeByteScan b = .garbageByte b := if_neg hb
  rw [hrow]
  exact congrArg Host.Outcome.next (garbageByte_of_cons h)

/-- Garbage bytes at the front of `BUF` are removed one row each, before any rows `is` that follow. -/
theorem execAll_scan_markerless {s : State} {g r : List Byte} (hg : Markerless g) (h : s.buf = g ++ r) :
    ∃ log, ∀ is, execAll (g.map decodeByteScan ++ is) s = execAll is { s with buf := r, log := log } := by
  induction g generalizing s with
  | nil =>
    obtain rfl : s.buf = r := h
    exact ⟨s.log, fun _ => rfl⟩
  | cons b g ih =>
    obtain ⟨hb, hg⟩ := List.forall_mem_cons.1 hg
    obtain ⟨log, hrun⟩ := ih (s := { s with buf := g ++ r, log := s.log ++ [.garbage [b]] }) hg rfl
    exact ⟨log, fun is => (execAll_cons_of_exec _ (exec_decodeByteScan_of_cons hb h)).trans (hrun is)⟩

theorem markerSearch_of_split {s : State} {g r : List Byte} (hg : Markerless g) (hr : Aligned r)
    (h : s.buf = g ++ r) : s.markerSearch = { s with buf := r, log := garbageLog s.log g } := by
  obtain ⟨hbefore, hfrom⟩ := markerSplit_append hg hr
  rw [markerSearch_eq_markerSplit, h, hbefore, hfrom]

/-- Settles O21: after the garbage bytes the row `SOF` changes nothing. -/
theorem markerSearchIsTheRunOfScannedBytes : Obligations.MarkerSearchIsTheRunOfScannedBytes := by
  intro s g r hg
  refine ⟨fun h => ?_, fun h => ?_⟩
  · obtain ⟨log, hrun⟩ := execAll_scan_markerless hg h
    rw [markerSearch_of_split hg (.inr rfl) h, List.map_append]
    exact ⟨_, hrun [.sof], rfl, rfl⟩
  · rw [← List.append_nil g] at h
    obtain ⟨log, hrun⟩ := execAll_scan_markerless hg h
    rw [markerSearch_of_split hg (.inl rfl) h, ← List.append_nil (g.map _)]
    exact ⟨_, hrun [], rfl, rfl⟩

/-! ### The cut into windows (R88, R89) -/

theorem windowsOf_flatMap_append (Ws : List Frame) (l : List Byte) :
    windowsOf (Ws.flatMap Frame.toList ++ l) = Ws ++ windowsOf l := by
  induction Ws with
  | nil => rfl
  | cons W Ws ih => exact congrArg (W :: ·) ih

theorem leftOver_flatMap_append (Ws : List Frame) (l : List Byte) :
    leftOver (Ws.flatMap Frame.toList ++ l) = leftOver l := by
  induction Ws with
  | nil => rfl
  | cons W Ws ih =>
    obtain ⟨-, -, hrest⟩ := frontWindow_some (W.toList ++ (Ws.flatMap Frame.toList ++ l)) W rfl
    rw [List.flatMap_cons, List.append_assoc, hrest]
    exact ih

/-- Whole windows and fewer than eight bytes: every byte string is cut so. -/
theorem flatMap_windowsOf_append_leftOver (l : List Byte) :
    (windowsOf l).flatMap Frame.toList ++ leftOver l = l := by
  induction l using windowsOf.induct with
  | case1 b0 b1 b2 b3 b4 b5 b6 b7 rest ih =>
    obtain ⟨-, hwindows, hrest⟩ :=
      frontWindow_some (b0 :: b1 :: b2 :: b3 :: b4 :: b5 :: b6 :: b7 :: rest) _ rfl
    rw [hwindows, hrest]
    exact congrArg ([b0, b1, b2, b3, b4, b5, b6, b7] ++ ·) ih
  | case2 l hshort =>
    have hnil : windowsOf l = [] := by rwa [windowsOf]
    rw [hnil, leftOver_of_short l ((windowsOf_eq_nil_iff l).1 hnil)]
    rfl

theorem leftOver_length_lt (l : List Byte) : (leftOver l).length < 8 := by
  rw [leftOver_length]
  exact Nat.mod_lt _ (by decide)

/-- More bytes behind: the cut goes on where it left off. -/
theorem windowsOf_append (l m : List Byte) : windowsOf (l ++ m) = windowsOf l ++ windowsOf (leftOver l ++ m) := by
  conv_lhs => rw [← flatMap_windowsOf_append_leftOver l, List.append_assoc, windowsOf_flatMap_append]

theorem leftOver_append (l m : List Byte) : leftOver (l ++ m) = leftOver (leftOver l ++ m) := by
  conv_lhs => rw [← flatMap_windowsOf_append_leftOver l, List.append_assoc, leftOver_flatMap_append]

/-! ### The handler, its loop and its closed form (R80 to R89) -/

/-- Settles O22: the closed form was reached by induction on the rounds of the loop. -/
theorem rxEqualsItsClosedForm : Obligations.RxEqualsItsClosedForm :=
  fun chunk s => congrArg Host.Outcome.next (rx_eq_rxClosed chunk s)

/-- Settles O24: the closed form dispatches the windows, and a dispatch is the decoded row. -/
theorem rxRunsTheDecodedWindows : Obligations.RxRunsTheDecodedWindows :=
  fun chunk s => ⟨_, execAll_map_decodeFrameRx _ _, congrArg Host.Outcome.next (rx_eq_rxClosed chunk s)⟩

/-- Enough rounds on the bytes that stand in `BUF`. -/
theorem framingLoop_of_enough {n : Nat} {s : State} (hn : s.buf.length / 8 ≤ n) :
    framingLoop n s = { dispatchAll (windowsOf s.buf) s with buf := leftOver s.buf } :=
  framingLoop_with_buf n s s.buf hn

/-- As long as there are windows, each round takes eight bytes (R86). -/
theorem framingLoop_buf_length (k : Nat) (s : State) (hk : k ≤ s.buf.length / 8) :
    (framingLoop k s).buf.length = s.buf.length - 8 * k := by
  induction k generalizing s with
  | zero => rfl
  | succ k ih =>
    rw [framingLoop]
    cases hW : frontWindow s.buf with
    | none =>
      have := (frontWindow_eq_none_iff _).1 hW
      omega
    | some W =>
      have hlen : ((dispatch W s).dropFront frameLen).buf.length = s.buf.length - 8 := by simp [frameLen]
      simp only
      rw [ih _ (by omega), hlen]
      omega

/-- Settles O25: what enough rounds give does not depend on their number. -/
theorem framingLoopRoundsAndLeftOver : Obligations.FramingLoopRoundsAndLeftOver := by
  intro s
  refine ⟨fun k => framingLoop_buf_length k s, fun k hk => ?_, ?_⟩
  · rw [framingLoop_of_enough hk, framingLoop_of_enough le_rfl]
  · rw [framingLoop_of_enough (Nat.div_le_self _ 8)]
    exact leftOver_length _

/-! ### The streaming realisation (R93) -/

/-- A run of the streaming realisation over bytes. -/
def stream (l : List Byte) (p : Phase × State) : Phase × State := l.foldl (fun p b => streamByte b p) p

theorem stream_append (l m : List Byte) (p : Phase × State) : stream (l ++ m) p = stream m (stream l p) :=
  List.foldl_append

theorem stream_cons (b : Byte) (l : List Byte) (p : Phase × State) :
    stream (b :: l) p = stream l (streamByte b p) := rfl

/-- SEARCH drops the bytes before the first 0xA9. -/
theorem stream_search_markerless {g : List Byte} (hg : Markerless g) (dropped : List Byte) (s : State) :
    stream g (.search dropped, s) = (.search (dropped ++ g), s) := by
  induction g generalizing dropped with
  | nil => rw [List.append_nil]; rfl
  | cons b g ih =>
    obtain ⟨hb, hg⟩ := List.forall_mem_cons.1 hg
    have hbyte : streamByte b (.search dropped, s) = (.search (dropped ++ [b]), s) := if_neg hb
    rw [stream_cons, hbyte, ih hg, List.append_assoc, List.singleton_append]

/-- FRAME dispatches a whole window and holds nothing of it. -/
theorem stream_frame_window (W : Frame) (s : State) :
    stream W.toList (.frame [], s) = (.frame [], dispatch W s) := rfl

theorem stream_frame_windows (Ws : List Frame) (s : State) :
    stream (Ws.flatMap Frame.toList) (.frame [], s) = (.frame [], dispatchAll Ws s) := by
  induction Ws generalizing s with
  | nil => rfl
  | cons W Ws ih => rw [List.flatMap_cons, stream_append, stream_frame_window, ih, dispatchAll_cons]

theorem ofList?_of_short {l : List Byte} (h : l.length < 8) : Frame.ofList? l = none := by
  unfold Frame.ofList?
  split
  · simp at h
  · rfl

/-- FRAME holds what does not fill a window. -/
theorem stream_frame_short (r held : List Byte) (s : State) (h : (held ++ r).length < 8) :
    stream r (.frame held, s) = (.frame (held ++ r), s) := by
  induction r generalizing held with
  | nil => rw [List.append_nil]; rfl
  | cons b r ih =>
    rw [List.append_cons] at h ⊢
    have hheld : (held ++ [b]).length < 8 := by
      rw [List.length_append] at h
      omega
    have hbyte : streamByte b (.frame held, s) = (.frame (held ++ [b]), s) := by
      simp only [streamByte, ofList?_of_short hheld]
    rw [stream_cons, hbyte, ih _ h]

/-- FRAME cuts as the closed form does. -/
theorem stream_frame (l : List Byte) (s : State) :
    stream l (.frame [], s) = (.frame (leftOver l), dispatchAll (windowsOf l) s) := by
  conv_lhs => rw [← flatMap_windowsOf_append_leftOver l]
  rw [stream_append, stream_frame_windows]
  exact stream_frame_short _ [] _ (leftOver_length_lt l)

/-- The 0xA9 that ends SEARCH is the first byte that FRAME holds. -/
theorem stream_search_marker {l : List Byte} (h : l.head? = some sofByte) (dropped : List Byte) (s : State) :
    stream l (.search dropped, s) = stream l (.frame [], { s with log := garbageLog s.log dropped }) := by
  obtain ⟨rest, rfl⟩ := List.head?_eq_some_iff.1 h
  rfl

theorem rxStream_eq_rxClosed (chunk : List Byte) (s : State) : rxStream chunk s = rxClosed chunk s := by
  have hsearch : stream (s.buf ++ chunk) (.search [], s) =
      stream (alignedBytes s chunk) (.search (discardedBytes s chunk), s) := by
    rw [alignedBytes_eq_fromMarker, discardedBytes_eq_beforeMarker]
    conv_lhs => rw [← beforeMarker_append_fromMarker (s.buf ++ chunk), stream_append,
      stream_search_markerless (markerless_beforeMarker _), List.nil_append]
  change streamEnd (stream (s.buf ++ chunk) (.search [], s)) = _
  rw [hsearch, rxClosed, dispatchedWindows]
  rcases alignedBytes_eq_nil_or_head s chunk with hnil | hhead
  · rw [hnil]
    rfl
  · rw [stream_search_marker hhead, stream_frame]
    rfl

/-- Settles O23: both realisations are the closed form. -/
theorem rxEqualsTheStreamingRealisation : Obligations.RxEqualsTheStreamingRealisation :=
  fun chunk s => congrArg Host.Outcome.next ((rx_eq_rxClosed chunk s).trans (rxStream_eq_rxClosed chunk s).symm)

/-! ### Chunks that complete no window (R90, R96) -/

theorem alignedBytes_eq_nil_iff {s : State} {chunk : List Byte} :
    alignedBytes s chunk = [] ↔ Markerless (s.buf ++ chunk) := by
  rw [alignedBytes_eq_fromMarker, fromMarker_eq_nil_iff]

theorem alignedBytes_length_le (s : State) (chunk : List Byte) :
    (alignedBytes s chunk).length ≤ (s.buf ++ chunk).length := by
  rw [alignedBytes_eq_fromMarker]
  exact List.length_dropWhile_le _ _

/-- The idle timer is stopped where nothing is left, else started with its full duration (R87). -/
theorem rx_idleTimer (chunk : List Byte) (s : State) :
    ((rx chunk s).buf = [] → (rx chunk s).idleArmed = false) ∧
    ((rx chunk s).buf ≠ [] → (rx chunk s).idleArmed = true ∧ (rx chunk s).idleRem = s.params.idleMs) := by
  rw [rx_idleArmed, rx_idleRem]
  cases (rx chunk s).buf <;> simp

/-- An `RX` with fewer aligned bytes than a window keeps them, and leaves the state timer and the output alone. -/
theorem rx_of_short {chunk : List Byte} {s : State} (h : (alignedBytes s chunk).length < 8) :
    (rx chunk s).buf = alignedBytes s chunk ∧ (rx chunk s).tickArmed = s.tickArmed ∧
    (rx chunk s).tickRem = s.tickRem ∧ (rx chunk s).devState = s.devState ∧ (rx chunk s).tx = s.tx := by
  have hwindows : dispatchedWindows s chunk = [] := (windowsOf_eq_nil_iff _).2 h
  refine ⟨?_, ?_, ?_, rx_devState chunk s, ?_⟩
  · rw [rx_buf, leftOver_of_short _ h]
  · simp [rx_tickArmed, hwindows]
  · simp [rx_tickRem, hwindows]
  · simp [rx_tx, hwindows]

/-- Settles O29: at most seven bytes hold no window. -/
theorem emptyChunkSearchesAgain : Obligations.EmptyChunkSearchesAgain := by
  intro s hs
  have hshort : (alignedBytes s []).length < 8 := by
    have := alignedBytes_length_le s []
    rw [List.append_nil] at this
    omega
  obtain ⟨hbuf, harmed, hrem, hcode, htx⟩ := rx_of_short hshort
  obtain ⟨hstop, hstart⟩ := rx_idleTimer [] s
  refine ⟨_, rfl, fun hfind => ?_, fun i hfind => ?_, harmed, hrem, hcode, htx⟩
  · have hnil : (rx [] s).buf = [] := by rw [hbuf]; simp [alignedBytes, hfind]
    exact ⟨hnil, hstop hnil⟩
  · have hdrop : (rx [] s).buf = s.buf.drop i := by rw [hbuf]; simp [alignedBytes, hfind]
    have hmarker : ¬ Markerless (s.buf ++ []) := by
      rw [List.append_nil, Markerless, ← findSof_eq_none_iff, hfind]
      exact Option.some_ne_none i
    have hne : (rx [] s).buf ≠ [] := by rwa [hbuf, Ne, alignedBytes_eq_nil_iff]
    exact ⟨hdrop, hstart hne⟩

/-- Settles O30: with no 0xA9 there are no aligned bytes, and behind one at the front of `BUF` all bytes are. -/
theorem garbageChunks : Obligations.GarbageChunks := by
  intro chunk s
  obtain ⟨hstop, hstart⟩ := rx_idleTimer chunk s
  refine ⟨_, rfl, fun hgarbage => ?_, fun hhead => ?_⟩
  · have hnil : alignedBytes s chunk = [] := alignedBytes_eq_nil_iff.2 hgarbage
    obtain ⟨hbuf, hrest⟩ := rx_of_short (chunk := chunk) (s := s) (by simp [hnil])
    rw [hnil] at hbuf
    exact ⟨hbuf, hstop hbuf, hrest⟩
  · have hall : (s.buf ++ chunk).head? = some sofByte := by simp [List.head?_append, hhead, sofByte]
    have haligned : alignedBytes s chunk = s.buf ++ chunk := by
      rw [alignedBytes_eq_fromMarker, fromMarker_of_aligned (.inr hall)]
    have hbuf : (rx chunk s).buf = leftOver (s.buf ++ chunk) := by rw [rx_buf, haligned]
    refine ⟨hbuf, fun hshort => ?_⟩
    rw [leftOver_of_short _ hshort] at hbuf
    have hne : (rx chunk s).buf ≠ [] := by
      rw [hbuf]
      rintro hnil
      simp [hnil] at hall
    exact ⟨hbuf, hstart hne⟩

end Sys2Proof.Machine
end

