-- ==== Sys2Proof/Proofs/ChunkBoundaries.lean ====
section
/-!
Chunk boundaries (`41_framing.md` R94, R95). Where the bytes at a boundary are aligned, or no 0xA9 has come before it, the
second event cuts on where the first left off; a stream of aligned windows is so at each of its boundaries.
-/

namespace Sys2Proof.Machine

/-! ### One boundary (R95) -/

/-- The condition of R95 on the boundary between `c1` and `c2`. -/
def FreeBoundary (s : State) (c1 c2 : List Byte) : Prop :=
  Markerless (s.buf ++ c1) ∨ Aligned ((rx c1 s).buf ++ c2)

/-- While no 0xA9 has come, later bytes are aligned as on an empty buffer. -/
theorem alignedBytes_append_of_markerless {s : State} {c1 : List Byte} (h : Markerless (s.buf ++ c1))
    (c2 : List Byte) : alignedBytes s (c1 ++ c2) = fromMarker c2 := by
  rw [alignedBytes_eq_fromMarker, ← List.append_assoc, fromMarker_append_of_markerless h]

/-- Once a 0xA9 has come, later bytes go behind the aligned ones. -/
theorem alignedBytes_append_of_not_markerless {s : State} {c1 : List Byte} (h : ¬ Markerless (s.buf ++ c1))
    (c2 : List Byte) : alignedBytes s (c1 ++ c2) = alignedBytes s c1 ++ c2 := by
  rw [alignedBytes_eq_fromMarker, alignedBytes_eq_fromMarker, ← List.append_assoc,
    fromMarker_append_of_ne_nil (mt fromMarker_eq_nil_iff.1 h)]

theorem rx_buf_of_markerless {s : State} {c : List Byte} (h : Markerless (s.buf ++ c)) : (rx c s).buf = [] := by
  rw [rx_buf, alignedBytes_eq_nil_iff.2 h]
  rfl

/-- Over a free boundary, the second event cuts the windows that one event would have cut there, and leaves the same. -/
theorem windows_of_freeBoundary {s : State} {c1 c2 : List Byte} (h : FreeBoundary s c1 c2) :
    dispatchedWindows s (c1 ++ c2) = dispatchedWindows s c1 ++ dispatchedWindows (rx c1 s) c2 ∧
    leftOver (alignedBytes s (c1 ++ c2)) = leftOver (alignedBytes (rx c1 s) c2) := by
  unfold dispatchedWindows
  rw [alignedBytes_eq_fromMarker (rx c1 s)]
  by_cases hgarbage : Markerless (s.buf ++ c1)
  · rw [alignedBytes_append_of_markerless hgarbage, rx_buf_of_markerless hgarbage,
      alignedBytes_eq_nil_iff.2 hgarbage]
    exact ⟨rfl, rfl⟩
  · have haligned := h.resolve_left hgarbage
    rw [alignedBytes_append_of_not_markerless hgarbage, fromMarker_of_aligned haligned, rx_buf]
    exact ⟨windowsOf_append _ _, leftOver_append _ _⟩

/-- What R95 compares: the items, the output and the counters. -/
def State.ends (s : State) : Arch × List Frame × Nat × Nat := (s.arch, s.tx, s.idleRem, s.tickRem)

/-- All that R95 compares is determined by the windows and the left-over bytes (R89, R107). -/
theorem rx_ends (chunk : List Byte) (s : State) :
    (rx chunk s).ends =
      (⟨leftOver (alignedBytes s chunk), s.devState, !(leftOver (alignedBytes s chunk)).isEmpty,
          s.tickArmed || (dispatchedWindows s chunk).any isPowerWindow⟩,
        s.tx ++ List.replicate ((dispatchedWindows s chunk).countP isQueryWindow) (buildStatusResponse s.devState),
        if (leftOver (alignedBytes s chunk)).isEmpty then 0 else s.params.idleMs,
        if (dispatchedWindows s chunk).any isPowerWindow then s.params.tickMs else s.tickRem) := by
  rw [State.ends, State.arch, rx_idleArmed, rx_idleRem, rx_tickArmed, rx_tickRem, rx_tx, rx_buf, rx_devState]

theorem rx_rx_ends_of_freeBoundary {s : State} {c1 c2 : List Byte} (h : FreeBoundary s c1 c2) :
    (rx c2 (rx c1 s)).ends = (rx (c1 ++ c2) s).ends := by
  obtain ⟨hwindows, hleft⟩ := windows_of_freeBoundary h
  have htimer (p q : Bool) (full old : Nat) :
      (if q then full else if p then full else old) = if p || q then full else old := by
    cases p <;> cases q <;> rfl
  simp only [rx_ends, hwindows, hleft, rx_devState, rx_tickArmed, rx_tx, rx_params, rx_tickRem, List.any_append,
    List.countP_append, Bool.or_assoc, List.append_assoc, List.replicate_append_replicate, htimer]

/-- Settles O31: the cut over a free boundary determines all that is compared. -/
theorem chunkBoundaryIndependenceRestricted : Obligations.ChunkBoundaryIndependenceRestricted := by
  refine fun s c1 c2 => ⟨_, _, _, rfl, rfl, rfl, fun h => ?_⟩
  have hends := rx_rx_ends_of_freeBoundary (s := s) (c1 := c1) (c2 := c2) h
  simp only [State.ends, Prod.mk.injEq] at hends
  obtain ⟨harch, htx, hidle, htick⟩ := hends
  exact ⟨harch, htx, hidle, htick, (windows_of_freeBoundary h).1⟩

/-- Settles O33, refuted from reset by R94's 17 bytes, cut after the ninth: the second event's search drops the ninth
byte, and the one event leaves the last. -/
theorem not_chunkBoundaryIndependenceUnrestricted : ¬ Obligations.ChunkBoundaryIndependenceUnrestricted := by
  intro h
  obtain ⟨hbuf, -⟩ := h State.reset _ _ _ (alignmentWindow.toList ++ [0x00#8]) buildStatusQuery.toList
    resetMeetsTheInvariant rfl rfl rfl
  exact absurd hbuf (by decide)

/-! ### Streams of aligned windows (R95, corollary) -/

/-- Every window of the bytes begins with 0xA9, and so does what is left, if anything. -/
def AlignedWindows (l : List Byte) : Prop :=
  (∀ W ∈ windowsOf l, W.b0 = sofByte) ∧ Aligned (leftOver l)

theorem AlignedWindows.aligned {l : List Byte} (h : AlignedWindows l) : Aligned l := by
  obtain ⟨hheads, hleft⟩ := h
  rw [← flatMap_windowsOf_append_leftOver l]
  cases hwindows : windowsOf l with
  | nil => exact hleft
  | cons W Ws => exact .inr (congrArg some (hheads W (by simp [hwindows])))

/-- Behind the windows cut so far the bytes are still cut into aligned windows. -/
theorem AlignedWindows.leftOver_append {l m : List Byte} (h : AlignedWindows (l ++ m)) :
    AlignedWindows (leftOver l ++ m) := by
  obtain ⟨hheads, hleft⟩ := h
  rw [windowsOf_append] at hheads
  rw [Machine.leftOver_append] at hleft
  exact ⟨fun W hW => hheads W (List.mem_append_right _ hW), hleft⟩

/-- The shape of R95: garbage, whole windows that begin with 0xA9, and a partial one. -/
theorem windows_of_stream {g p : List Byte} {fs : List Frame} (hg : Markerless g) (hfs : ∀ F ∈ fs, F.b0 = sofByte)
    (hp : p.length < 8) (haligned : Aligned p) :
    fromMarker (g ++ fs.flatMap Frame.toList ++ p) = fs.flatMap Frame.toList ++ p ∧
    windowsOf (fs.flatMap Frame.toList ++ p) = fs ∧ leftOver (fs.flatMap Frame.toList ++ p) = p ∧
    AlignedWindows (fs.flatMap Frame.toList ++ p) := by
  have hwindows : windowsOf (fs.flatMap Frame.toList ++ p) = fs := by
    rw [windowsOf_flatMap_append, (windowsOf_eq_nil_iff p).2 hp, List.append_nil]
  have hleft : leftOver (fs.flatMap Frame.toList ++ p) = p := by
    rw [leftOver_flatMap_append, leftOver_of_short p hp]
  have hall : AlignedWindows (fs.flatMap Frame.toList ++ p) := ⟨hwindows.symm ▸ hfs, hleft.symm ▸ haligned⟩
  rw [List.append_assoc, fromMarker_append_of_markerless hg, fromMarker_of_aligned hall.aligned]
  exact ⟨rfl, hwindows, hleft, hall⟩

/-- Every boundary in a stream of aligned windows is free, and such a stream is still to come behind it. -/
theorem freeBoundary_of_stream {s : State} {c rest : List Byte}
    (h : AlignedWindows (fromMarker (s.buf ++ (c ++ rest)))) :
    FreeBoundary s c rest ∧ AlignedWindows (fromMarker ((rx c s).buf ++ rest)) := by
  rw [← alignedBytes_eq_fromMarker] at h
  by_cases hgarbage : Markerless (s.buf ++ c)
  · rw [alignedBytes_append_of_markerless hgarbage] at h
    rw [rx_buf_of_markerless hgarbage]
    exact ⟨.inl hgarbage, h⟩
  · rw [alignedBytes_append_of_not_markerless hgarbage] at h
    have hrest := h.leftOver_append
    rw [← rx_buf] at hrest
    rw [fromMarker_of_aligned hrest.aligned]
    exact ⟨.inr hrest.aligned, hrest⟩

/-- By induction on the chunks: the later ones end like one chunk, and the boundary before them is free. -/
theorem execAll_rxAll_ends_of_stream (c : List Byte) (cs : List (List Byte)) (s : State)
    (h : AlignedWindows (fromMarker (s.buf ++ (c ++ cs.flatten)))) :
    ∃ v, execAll (rxAll (c :: cs)) s = .next v ∧ v.ends = (rx (c ++ cs.flatten) s).ends := by
  induction cs generalizing c s with
  | nil => exact ⟨rx c s, rfl, by rw [List.flatten_nil, List.append_nil]⟩
  | cons d ds ih =>
    obtain ⟨hfree, hstream⟩ := freeBoundary_of_stream h
    obtain ⟨v, hrun, hends⟩ := ih d (rx c s) hstream
    exact ⟨v, hrun, hends.trans (rx_rx_ends_of_freeBoundary hfree)⟩

/-- Settles O32: the chunks together are a stream of aligned windows. -/
theorem alignedStreamEndsAlikeUnderEveryCutting : Obligations.AlignedStreamEndsAlikeUnderEveryCutting := by
  intro s g p fs chunks hempty hg hfs hp haligned hchunks hbytes
  obtain ⟨c, cs, rfl⟩ := List.exists_cons_of_ne_nil hchunks
  obtain ⟨hfrom, hwindows, hleft, hstream⟩ := windows_of_stream hg hfs (Nat.lt_succ_of_le hp) haligned
  have hall : alignedBytes s (c :: cs).flatten = fs.flatMap Frame.toList ++ p := by
    rw [alignedBytes_eq_fromMarker, hempty, List.nil_append, hbytes, hfrom]
  have hcut : AlignedWindows (fromMarker (s.buf ++ (c ++ cs.flatten))) := by
    rw [← List.flatten_cons, ← alignedBytes_eq_fromMarker, hall]
    exact hstream
  obtain ⟨v, hrun, hends⟩ := execAll_rxAll_ends_of_stream c cs s hcut
  simp only [State.ends, Prod.mk.injEq] at hends
  obtain ⟨harch, htx, -, -⟩ := hends
  refine ⟨v, _, hrun, rfl, harch, htx, ?_, ?_⟩
  · rw [rx_buf, hall, hleft]
  · rw [rx_tx, dispatchedWindows, hall, hwindows]

end Sys2Proof.Machine
end

/-!
The commands and the dispatcher (`42_dispatch.md` R100 to R107): what each command writes, as one update of the state, and
what the windows of one `RX` write together.
-/

namespace Sys2Proof.Machine

/-! ### The commands as updates of the state (R102 to R105) -/

/-- The response goes to the end of the output, and no other field is written (R101, R102). -/
theorem statusQuery_eq (s : State) :
    statusQuery s = { s with tx := s.tx ++ [buildStatusResponse s.devState] } := rfl

/-- A start of the state timer, its record (entry 10) left out, sets the flag and a full period (R145, R149). -/
theorem timerStart_tick_with_timerCalls (s : State) :
    ({ s.timerStart .tick with timerCalls := s.timerCalls } : State) =
      { s with tickArmed := true, tickRem := s.params.tickMs } := rfl

/-- A log point is all that an unrecognized window leaves (R105, R150). -/
theorem unrecognizedWindow_with_log (W : Frame) (s : State) :
    ({ unrecognizedWindow W s with log := s.log } : State) = s := rfl

/-- Settles O3: the response of R72 is the frame of R102. -/
theorem statusQueryWritesOneResponse : Obligations.StatusQueryWritesOneResponse :=
  fun s => congrArg Host.Outcome.next (statusQuery_eq s)

/-- Settles O4: either power command is the start of the state timer. -/
theorem powerCommandsRestartTheStateTimer : Obligations.PowerCommandsRestartTheStateTimer :=
  fun s => ⟨⟨powerOn s, rfl, timerStart_tick_with_timerCalls s⟩,
    ⟨powerOff s, rfl, timerStart_tick_with_timerCalls s⟩, rfl⟩

/-- Settles O5: the row is the log point and nothing else. -/
theorem unrecognizedWindowChangesNothing : Obligations.UnrecognizedWindowChangesNothing :=
  fun W s => ⟨unrecognizedWindow W s, rfl, unrecognizedWindow_with_log W s⟩

/-! ### The dispatcher (R57, R100) -/

/-- Settles O7: a row with a full mask takes its template alone, so both classifiers take the same branch. -/
theorem dispatchRunsTheDecodedCommand : Obligations.DispatchRunsTheDecodedCommand := exec_decodeFrameRx

/-! ### The windows of one chunk together (R36, R39, R87, R107) -/

@[simp] theorem rx_now (chunk : List Byte) (s : State) : (rx chunk s).now = s.now := by
  simp [rx_eq_rxClosed, rxClosed]
@[simp] theorem rx_codecOut (chunk : List Byte) (s : State) : (rx chunk s).codecOut = s.codecOut := by
  simp [rx_eq_rxClosed, rxClosed]
@[simp] theorem rx_inbox (chunk : List Byte) (s : State) : (rx chunk s).inbox = s.inbox := by
  simp [rx_eq_rxClosed, rxClosed]

/-- Settles O26, field by field; the flag and the output were reached by induction on the windows. -/
theorem rxNetEffect : Obligations.RxNetEffect := fun chunk s =>
  ⟨rx chunk s, rfl, rx_tickArmed chunk s, rx_tx chunk s, rx_devState chunk s, rx_now chunk s, rx_codecOut chunk s,
    rx_inbox chunk s, rx_idleArmed chunk s⟩

end Sys2Proof.Machine

/-!
The power state machine (`43_power_fsm.md` R110 to R122): what `TICK` and `IDLE_TIMEOUT` write, the way that three ticks
lead from one resting point to the other, and the time that this way takes in the timed refinement (R149).
-/

namespace Sys2Proof.Machine

/-! ### The rows of TICK as updates of the state (R111 to R116) -/

/-- A row that leaves the timer armed writes the next code and a new period (R149). -/
theorem setDevState_tickContinue_eq (s : State) (c : StateCode) :
    (s.setDevState c).tickContinue = { s with devState := c, tickRem := s.params.tickMs } := rfl

/-- A row that stops the timer writes the next code and the flag, its record (entry 10) and the stopped counter (entry 7)
left out. -/
theorem setDevState_timerStop_with_records (s : State) (c : StateCode) :
    ({ (s.setDevState c).timerStop .tick with timerCalls := s.timerCalls, tickRem := s.tickRem } : State) =
      { s with devState := c, tickArmed := false } := rfl

/-- No row writes anything but `STATE`, the flag of the state timer, its counter and its record. -/
theorem tickRow_frame (c : StateCode) (s : State) :
    ({ tickRow c s with devState := s.devState, tickArmed := s.tickArmed, tickRem := s.tickRem,
                        timerCalls := s.timerCalls } : State) = s := by
  rcases tickRow_cases c s with ⟨d, -, e⟩ | ⟨-, e⟩ | ⟨-, -, -, -, -, e⟩ <;> rw [e] <;> rfl

/-! ### `TICK` and `IDLE_TIMEOUT`, armed and stopped (R110, R120) -/

theorem stateTick_of_armed {s : State} (h : s.tickArmed = true) : stateTick s = tickRow s.devState s := if_pos h

theorem stateTick_of_stopped {s : State} (h : s.tickArmed = false) : stateTick s = s := by
  simp [stateTick, h]

theorem exec_tick_of_armed {s : State} (h : s.tickArmed = true) : exec .tick s = exec (decodeTick s.devState) s :=
  calc exec .tick s = .next (tickRow s.devState s) := congrArg Host.Outcome.next (stateTick_of_armed h)
    _ = exec (decodeTick s.devState) s := (exec_decodeTick s.devState s).symm

theorem exec_tick_of_stopped {s : State} (h : s.tickArmed = false) : exec .tick s = .next s :=
  congrArg Host.Outcome.next (stateTick_of_stopped h)

/-- Settles O15: the two values of the flag. -/
theorem tickRunsTheRowOfState : Obligations.TickRunsTheRowOfState := by
  intro s
  cases h : s.tickArmed with
  | false => exact exec_tick_of_stopped h
  | true => exact exec_tick_of_armed h

/-- An armed tick runs the row that its code decodes to. -/
theorem exec_tick_of_decodeTick {s : State} {c : StateCode} {i : Instr} (harmed : s.tickArmed = true)
    (hi : decodeTick c = i) (hc : s.devState = c) : exec .tick s = exec i s := by
  rw [exec_tick_of_armed harmed, hc, hi]

/-- Settles O14: the six rows as updates of the state, and the decoder's choice among them. -/
theorem tickRowsFollowTheTable : Obligations.TickRowsFollowTheTable := fun s =>
  ⟨congrArg Host.Outcome.next (setDevState_tickContinue_eq s 0x01#8),
   congrArg Host.Outcome.next (setDevState_tickContinue_eq s 0x02#8),
   ⟨tickStartuplamp s, rfl, setDevState_timerStop_with_records s 0x03#8⟩,
   congrArg Host.Outcome.next (setDevState_tickContinue_eq s 0x04#8),
   congrArg Host.Outcome.next (setDevState_tickContinue_eq s 0x05#8),
   fun c => ⟨tickDefault c s, rfl, setDevState_timerStop_with_records s 0x00#8⟩,
   fun h => ⟨exec_tick_of_decodeTick h rfl, exec_tick_of_decodeTick h rfl, exec_tick_of_decodeTick h rfl,
     exec_tick_of_decodeTick h rfl, exec_tick_of_decodeTick h rfl,
     fun hc => exec_tick_of_decodeTick h (decodeTick_of_four_lt hc) rfl⟩⟩

/-- An armed row leaves the timer stopped exactly where it writes 0x03 or found no listed code (R113, R116). -/
theorem tickRow_stops_iff {s : State} (c : StateCode) (h : s.tickArmed = true) :
    (tickRow c s).tickArmed = false ↔ (tickRow c s).devState = 0x03#8 ∨ 4 < c.toNat := by
  have hsucc (x : BitVec 8) : x + 1#8 = 0x03#8 ↔ x = 0x02#8 := by bv_omega
  rw [tickRow_tickArmed, tickRow_devState, h, Bool.true_and, decide_eq_false_iff_not]
  by_cases hc : c.toNat ≤ 4
  · simp [hc, hsucc, hc.not_gt]
  · simp [hc, not_le.1 hc]

/-- Settles O16: the table as a function of the code, and its frame. -/
theorem tickNextStateFunction : Obligations.TickNextStateFunction := by
  refine fun s => ⟨exec_tick_of_stopped, fun h => ⟨tickRow s.devState s, ?_, ?_, ?_, ?_⟩⟩
  · exact congrArg Host.Outcome.next (stateTick_of_armed h)
  · exact tickRow_devState s.devState s
  · exact tickRow_stops_iff s.devState h
  · exact tickRow_frame s.devState s

theorem idleTimeout_of_armed {s : State} (h : s.idleArmed = true) : idleTimeout s = s.clearBuf.idleExpired := if_pos h

theorem idleTimeout_of_stopped {s : State} (h : s.idleArmed = false) : idleTimeout s = s := by
  simp [idleTimeout, h]

/-- Settles O19: the two values of the flag. -/
theorem idleTimeoutClearsTheBuffer : Obligations.IdleTimeoutClearsTheBuffer := by
  refine fun s => ⟨fun h => ⟨s.clearBuf.idleExpired, ?_, rfl⟩, fun h => ?_⟩
  · exact congrArg Host.Outcome.next (idleTimeout_of_armed h)
  · exact congrArg Host.Outcome.next (idleTimeout_of_stopped h)

/-! ### The way from one resting point to the other (R117) -/

/-- The resting points: Standby and PowerOn (R18). -/
def Resting (c : StateCode) : Prop := c = 0x00#8 ∨ c = 0x03#8

/-- The resting point that is not `c`. -/
def otherRest (c : StateCode) : StateCode := if c = 0x00#8 then 0x03#8 else 0x00#8

/-- The first two ticks after a resting point go to the next code, and the timer goes on. -/
theorem stateTick_on_the_way {s : State} {c : StateCode} {k : Nat} (hc : Resting c) (hk : k < 2)
    (harmed : s.tickArmed = true) (hcode : s.devState = c + BitVec.ofNat 8 k) :
    stateTick s = (s.setDevState (c + BitVec.ofNat 8 (k + 1))).tickContinue := by
  rw [stateTick_of_armed harmed, hcode]
  have hk' : k = 0 ∨ k = 1 := by omega
  rcases hc with rfl | rfl <;> rcases hk' with rfl | rfl <;> rfl

/-- The third tick stops the timer at the other resting point. -/
theorem stateTick_ends_the_way {s : State} {c : StateCode} (hc : Resting c) (harmed : s.tickArmed = true)
    (hcode : s.devState = c + 2#8) : stateTick s = (s.setDevState (otherRest c)).timerStop .tick := by
  rw [stateTick_of_armed harmed, hcode]
  rcases hc with rfl | rfl <;> rfl

/-- A step that takes a tick. -/
theorem step_of_tick {s t : State} {rest : List Input} (h : s.inbox = .tick :: rest)
    (ht : stateTick (s.takeEvent rest) = t) : step s = .next t :=
  (step_of_inbox_cons h).trans (congrArg Host.Outcome.next ht)

/-- Four ticks from either resting point: two on the way, one that arrives, and one that only takes its event. -/
theorem four_ticks_from_rest {s : State} {rest : List Input} (hc : Resting s.devState) (harmed : s.tickArmed = true)
    (hinbox : s.inbox = .tick :: .tick :: .tick :: .tick :: rest) :
    ∃ t1 t2 t3 t4, step s = .next t1 ∧ step t1 = .next t2 ∧ step t2 = .next t3 ∧ step t3 = .next t4 ∧
      t1.devState = s.devState + 1#8 ∧ t1.tickArmed = true ∧ t2.devState = s.devState + 2#8 ∧ t2.tickArmed = true ∧
      t3.devState = otherRest s.devState ∧ t3.tickArmed = false ∧ t4 = { t3 with inbox := rest } :=
  ⟨_, _, _, _,
    step_of_tick hinbox (stateTick_on_the_way (k := 0) hc (by decide) harmed (BitVec.add_zero _).symm),
    step_of_tick rfl (stateTick_on_the_way (k := 1) hc (by decide) harmed rfl),
    step_of_tick rfl (stateTick_ends_the_way hc harmed rfl),
    step_of_tick rfl (stateTick_of_stopped rfl),
    rfl, harmed, rfl, harmed, rfl, rfl, rfl⟩

/-- Settles O17: the four ticks, with the codes of either resting point filled in. -/
theorem threeTicksReachTheOtherRestingPoint : Obligations.ThreeTicksReachTheOtherRestingPoint := by
  refine fun s rest harmed hinbox => ⟨fun hcode => ?_, fun hcode => ?_⟩
  · have hwalk := four_ticks_from_rest (.inl hcode) harmed hinbox
    rwa [hcode] at hwalk
  · have hwalk := four_ticks_from_rest (.inr hcode) harmed hinbox
    rwa [hcode] at hwalk

/-! ### Timed runs (R149) -/

theorem elapseAdmits_iff {s : State} {d : Nat} : elapseAdmits s d = true ↔
    (s.idleArmed = true → d ≤ s.idleRem) ∧ (s.tickArmed = true → d ≤ s.tickRem) := by
  simp only [elapseAdmits, Bool.and_eq_true, Bool.or_eq_true, Bool.not_eq_true', decide_eq_true_eq]
  cases s.idleArmed <;> cases s.tickArmed <;> simp

theorem timedStep_elapse_eq_some_iff {s t : State} {d : Nat} :
    timedStep (.elapse d) s = some t ↔ elapseAdmits s d = true ∧ s.elapse d = t := by
  simp [timedStep]

/-- A tick comes when the state timer is due, and then is the tick of the untimed model. -/
theorem timedStep_tick_eq_some_iff {s t : State} :
    timedStep (.event .tick) s = some t ↔ (s.tickArmed = true ∧ s.tickRem = 0) ∧ stateTick s = t := by
  simp [timedStep, timedAdmits, State.due, Input.toInstr, exec, execTick]

theorem timedRun_cons_of_timedStep {e : TimedEvent} {s t : State} (es : List TimedEvent) (h : timedStep e s = some t) :
    timedRun (e :: es) s = timedRun es t := by
  rw [timedRun, h]

theorem timedRun_cons_eq_some {e : TimedEvent} {es : List TimedEvent} {s t : State}
    (h : timedRun (e :: es) s = some t) : ∃ u, timedStep e s = some u ∧ timedRun es u = some t := by
  cases hu : timedStep e s with
  | none => simp [timedRun, hu] at h
  | some u => exact ⟨u, rfl, timedRun_cons_of_timedStep es hu ▸ h⟩

/-- What every transition of a run keeps holds at its end. -/
theorem timedRun_keeps {P : State → Prop} {es : List TimedEvent}
    (hstep : ∀ e ∈ es, ∀ u v, P u → timedStep e u = some v → P v) {s t : State} (hs : P s)
    (hrun : timedRun es s = some t) : P t := by
  induction es generalizing s with
  | nil => exact Option.some.inj hrun ▸ hs
  | cons e es ih =>
    obtain ⟨u, hu, hrest⟩ := timedRun_cons_eq_some hrun
    exact ih (fun e' he' => hstep e' (List.mem_cons_of_mem e he')) (hstep e List.mem_cons_self s u hs hu) hrest

/-! ### Three periods (R122) -/

/-- A full period and its tick: with the idle timer stopped, nothing forbids the time to pass. -/
theorem timedRun_period {s t : State} (es : List TimedEvent) (hidle : s.idleArmed = false) (harmed : s.tickArmed = true)
    (hfull : s.tickRem = s.params.tickMs) (ht : stateTick (s.elapse s.params.tickMs) = t) :
    timedRun (.elapse s.params.tickMs :: .event .tick :: es) s = timedRun es t := by
  have hadmits : elapseAdmits s s.params.tickMs = true := elapseAdmits_iff.2 ⟨by simp [hidle], fun _ => hfull.ge⟩
  have hdue : (s.elapse s.params.tickMs).tickRem = 0 := by simp [harmed, hfull]
  have hpass : timedStep (.elapse s.params.tickMs) s = some (s.elapse s.params.tickMs) :=
    timedStep_elapse_eq_some_iff.2 ⟨hadmits, rfl⟩
  have htick : timedStep (.event .tick) (s.elapse s.params.tickMs) = some t :=
    timedStep_tick_eq_some_iff.2 ⟨⟨harmed, hdue⟩, ht⟩
  rw [timedRun_cons_of_timedStep _ hpass, timedRun_cons_of_timedStep _ htick]

/-- `s` after a full period whose tick has written `c` and goes on. -/
def State.afterPeriod (s : State) (c : StateCode) : State := ((s.elapse s.params.tickMs).setDevState c).tickContinue

/-- The run that reaches the other resting point: three periods, each with its tick. -/
theorem timedRun_three_periods {s : State} (hc : Resting s.devState) (hidle : s.idleArmed = false)
    (harmed : s.tickArmed = true) (hfull : s.tickRem = s.params.tickMs) :
    ∃ t, timedRun [.elapse s.params.tickMs, .event .tick, .elapse s.params.tickMs, .event .tick,
        .elapse s.params.tickMs, .event .tick] s = some t ∧
      t.now = s.now + s.params.tickMs + s.params.tickMs + s.params.tickMs ∧ t.tickArmed = false ∧
      t.devState = otherRest s.devState := by
  have hfirst (es : List TimedEvent) : timedRun (.elapse s.params.tickMs :: .event .tick :: es) s =
      timedRun es (s.afterPeriod (s.devState + 1#8)) :=
    timedRun_period es hidle harmed hfull
      (stateTick_on_the_way (k := 0) hc (by decide) harmed (BitVec.add_zero _).symm)
  have hsecond (es : List TimedEvent) : timedRun (.elapse s.params.tickMs :: .event .tick :: es)
      (s.afterPeriod (s.devState + 1#8)) =
        timedRun es ((s.afterPeriod (s.devState + 1#8)).afterPeriod (s.devState + 2#8)) :=
    timedRun_period (s := s.afterPeriod _) es hidle harmed rfl
      (stateTick_on_the_way (k := 1) hc (by decide) harmed rfl)
  have hthird := timedRun_period (s := (s.afterPeriod (s.devState + 1#8)).afterPeriod (s.devState + 2#8)) [] hidle harmed
    rfl (stateTick_ends_the_way hc harmed rfl)
  exact ⟨_, (hfirst _).trans ((hsecond _).trans hthird), rfl, rfl, rfl⟩

/-- Where a run of ticks and passing time from the resting point `s`, its timer armed for a full period, can stand:
`k` periods behind it and the next one running, or arrived. -/
inductive State.OnTheWay (s t : State) : Prop where
  | underway (k : Nat) (hk : k < 3) (armed : t.tickArmed = true) (code : t.devState = s.devState + BitVec.ofNat 8 k)
      (clock : t.now + t.tickRem = s.now + (k + 1) * s.params.tickMs) (params : t.params = s.params)
  | arrived (stopped : t.tickArmed = false) (code : t.devState = otherRest s.devState)
      (clock : s.now + 3 * s.params.tickMs ≤ t.now)

namespace State.OnTheWay

variable {s t : State}

theorem start (harmed : s.tickArmed = true) (hfull : s.tickRem = s.params.tickMs) : s.OnTheWay s :=
  .underway 0 (by decide) harmed (BitVec.add_zero _).symm (by rw [hfull]; ring) rfl

/-- Time passes within the running period, or after the arrival. -/
theorem elapse {d : Nat} (h : s.OnTheWay t) (hadmits : elapseAdmits t d = true) : s.OnTheWay (t.elapse d) := by
  cases h with
  | underway k hk armed code clock params =>
    have hd : d ≤ t.tickRem := (elapseAdmits_iff.1 hadmits).2 armed
    have hclock : t.now + d + (t.tickRem - d) = t.now + t.tickRem := by omega
    exact .underway k hk armed code (by simpa [armed, hclock] using clock) params
  | arrived stopped code clock => exact .arrived stopped code (clock.trans (Nat.le_add_right _ d))

/-- A tick that is due ends the running period; the third one arrives. -/
theorem tick (hc : Resting s.devState) (h : s.OnTheWay t) (harmed : t.tickArmed = true) (hdue : t.tickRem = 0) :
    s.OnTheWay (stateTick t) := by
  cases h with
  | underway k hk armed code clock params =>
    rw [hdue, Nat.add_zero] at clock
    by_cases hlast : k = 2
    · subst hlast
      rw [stateTick_ends_the_way hc harmed code]
      exact .arrived rfl rfl clock.ge
    · have hk' : k < 2 := by omega
      rw [stateTick_on_the_way hc hk' harmed code]
      refine .underway (k + 1) (by omega) armed rfl ?_ params
      show t.now + t.params.tickMs = s.now + (k + 1 + 1) * s.params.tickMs
      rw [clock, params]
      ring
  | arrived stopped => simp [stopped] at harmed

theorem timedStep {e : TimedEvent} {u : State} (hc : Resting s.devState)
    (he : e = .event .tick ∨ ∃ d, e = .elapse d) (h : s.OnTheWay t) (hstep : timedStep e t = some u) :
    s.OnTheWay u := by
  rcases he with rfl | ⟨d, rfl⟩
  · obtain ⟨⟨harmed, hdue⟩, rfl⟩ := timedStep_tick_eq_some_iff.1 hstep
    exact h.tick hc harmed hdue
  · obtain ⟨hadmits, rfl⟩ := timedStep_elapse_eq_some_iff.1 hstep
    exact h.elapse hadmits

/-- A stopped timer means that the three periods are over. -/
theorem clock_of_stopped (h : s.OnTheWay t) (hstopped : t.tickArmed = false) :
    s.now + 3 * s.params.tickMs ≤ t.now := by
  cases h with
  | underway k hk armed => simp [armed] at hstopped
  | arrived stopped code clock => exact clock

/-- After the three periods nothing is left but the other resting point. -/
theorem arrived_of_late (h : s.OnTheWay t) (hlate : s.now + 3 * s.params.tickMs < t.now) :
    t.tickArmed = false ∧ t.devState = otherRest s.devState := by
  cases h with
  | underway k hk armed code clock =>
    have hperiods : (k + 1) * s.params.tickMs ≤ 3 * s.params.tickMs := Nat.mul_le_mul_right _ hk
    omega
  | arrived stopped code => exact ⟨stopped, code⟩

end State.OnTheWay

/-- Settles O55: the run of three periods, and an invariant of all runs of ticks and passing time. -/
theorem restingPointAfterThreePeriods : Obligations.RestingPointAfterThreePeriods := by
  intro s harmed hfull hc
  refine ⟨fun hidle => ?_, fun es t hes hrun => ?_⟩
  · obtain ⟨t, hrun, hnow, hstopped, hcode⟩ := timedRun_three_periods hc hidle harmed hfull
    exact ⟨t, hrun, by rw [hnow]; ring, hstopped, hcode⟩
  · have hway : s.OnTheWay t :=
      timedRun_keeps (fun e he _ _ hu hstep => hu.timedStep hc (hes e he) hstep) (.start harmed hfull) hrun
    exact ⟨hway.clock_of_stopped, hway.arrived_of_late⟩

end Sys2Proof.Machine

/-!
Events and timers (`60_exceptions.md` R130 to R149): every event has a successor and keeps the parameters, what the traces
record, which pairs of events commute, and the timed refinement as a restriction of the untimed model.
-/

namespace Sys2Proof.Machine

/-! ### What the handlers leave of the parameters, the traces and the clock -/

@[simp] theorem stateTick_params (s : State) : (stateTick s).params = s.params := by
  rcases stateTick_cases s with ⟨-, e⟩ | ⟨-, d, -, e⟩ | ⟨-, d, -, e⟩ <;> simp [e]
@[simp] theorem stateTick_idleRem (s : State) : (stateTick s).idleRem = s.idleRem := by
  rcases stateTick_cases s with ⟨-, e⟩ | ⟨-, d, -, e⟩ | ⟨-, d, -, e⟩ <;> simp [e]
@[simp] theorem stateTick_now (s : State) : (stateTick s).now = s.now := by
  rcases stateTick_cases s with ⟨-, e⟩ | ⟨-, d, -, e⟩ | ⟨-, d, -, e⟩ <;> simp [e]
@[simp] theorem stateTick_log (s : State) : (stateTick s).log = s.log := by
  rcases stateTick_cases s with ⟨-, e⟩ | ⟨-, d, -, e⟩ | ⟨-, d, -, e⟩ <;> simp [e]

@[simp] theorem idleTimeout_params (s : State) : (idleTimeout s).params = s.params := by
  rcases idleTimeout_cases s with ⟨-, e⟩ | ⟨-, e⟩ <;> simp [e]
@[simp] theorem idleTimeout_timerCalls (s : State) : (idleTimeout s).timerCalls = s.timerCalls := by
  rcases idleTimeout_cases s with ⟨-, e⟩ | ⟨-, e⟩ <;> simp [e]
@[simp] theorem idleTimeout_log (s : State) : (idleTimeout s).log = s.log := by
  rcases idleTimeout_cases s with ⟨-, e⟩ | ⟨-, e⟩ <;> simp [e]

theorem garbageByte_params (b : Byte) (s : State) : (garbageByte b s).params = s.params := by
  unfold garbageByte
  split
  · rw [State.discardFront_eq]
  · rfl

/-! ### Every event has a successor, and none writes the parameters (R140, R144) -/

/-- Every row answers a next state, and that state carries the parameters of the old one. -/
theorem exists_exec_next (i : Instr) (s : State) : ∃ t, exec i s = .next t ∧ t.params = s.params := by
  cases i with
  | garbageByte b => exact ⟨_, rfl, garbageByte_params b s⟩
  | rx chunk => exact ⟨_, rfl, rx_params chunk s⟩
  | idleTimeout => exact ⟨_, rfl, idleTimeout_params s⟩
  | tick => exact ⟨_, rfl, stateTick_params s⟩
  | _ => exact ⟨_, rfl, rfl⟩

theorem exists_step_next (s : State) : ∃ t, step s = .next t ∧ t.params = s.params := by
  cases hinbox : s.inbox with
  | nil => exact ⟨s, step_of_inbox_nil hinbox, rfl⟩
  | cons e rest =>
    rw [step_of_inbox_cons hinbox]
    exact exists_exec_next e.toInstr (s.takeEvent rest)

theorem params_eq_of_exec {i : Instr} {s t : State} (h : exec i s = .next t) : t.params = s.params := by
  obtain ⟨u, hu, hparams⟩ := exists_exec_next i s
  rwa [eq_of_next (hu.symm.trans h)]

/-- Settles O57: no row and no step writes the parameters. -/
theorem nothingChangesTheParameters : Obligations.NothingChangesTheParameters :=
  ⟨exists_exec_next, exists_step_next⟩

/-- Settles O39: the next state of every row and every step, whatever it holds. -/
theorem everyEventHasASuccessor : Obligations.EveryEventHasASuccessor :=
  ⟨fun i s => (exists_exec_next i s).imp fun _ => And.left, fun s => (exists_step_next s).imp fun _ => And.left⟩

/-! ### The traces and the timer service (R134, R145, R146, R150) -/

/-- Settles O6: the one record that each row appends, and none for the timeout. -/
theorem tracesRecordTheTransactions : Obligations.TracesRecordTheTransactions := by
  refine ⟨fun W s t h => ?_, fun i s t hi h => ?_, fun i s t hi h => ?_, fun s t h => ?_⟩
  · rw [eq_of_next h]
    exact State.trace_log s _
  · have ht : t = s.timerStart .tick := by
      rcases hi with rfl | rfl <;> exact eq_of_next h
    simp [ht]
  · have ht : ∃ c, t = (s.setDevState c).timerStop .tick := by
      rcases hi with rfl | ⟨c, rfl⟩ <;> exact ⟨_, eq_of_next h⟩
    obtain ⟨c, rfl⟩ := ht
    simp
  · rw [eq_of_next h]
    exact ⟨idleTimeout_timerCalls s, idleTimeout_log s⟩

theorem timerStart_idle_with_timerCalls (s : State) :
    ({ s.timerStart .idle with timerCalls := s.timerCalls } : State) =
      { s with idleArmed := true, idleRem := s.params.idleMs } := rfl

theorem timerStop_idle_with_records (s : State) :
    ({ s.timerStop .idle with timerCalls := s.timerCalls, idleRem := s.idleRem } : State) =
      { s with idleArmed := false } := rfl

/-- The stop of a stopped timer is recorded, and changes nothing else (R146). -/
theorem timerStop_twice_with_timerCalls (s : State) (T : Timer) :
    ({ (s.timerStop T).timerStop T with timerCalls := (s.timerStop T).timerCalls } : State) = s.timerStop T := by
  cases T <;> rfl

/-- Settles O53: the two operations on the two timers as updates of the state. -/
theorem timerStartAndStop : Obligations.TimerStartAndStop := fun s =>
  ⟨timerStart_idle_with_timerCalls s, timerStart_tick_with_timerCalls s, timerStop_idle_with_records s,
    setDevState_timerStop_with_records s s.devState, timerStop_twice_with_timerCalls s⟩

/-! ### `TICK` and the receive side (R23, R137) -/

/-- `s` with new values of what the receive side owns: `BUF`, the idle timer and the log. -/
def State.withReceiveSide (s : State) (buf : List Byte) (armed : Bool) (rem : Nat) (log : List LogEntry) : State :=
  { s with buf := buf, idleArmed := armed, idleRem := rem, log := log }

@[simp] theorem State.withReceiveSide_devState (s : State) (buf : List Byte) (armed : Bool) (rem : Nat)
    (log : List LogEntry) : (s.withReceiveSide buf armed rem log).devState = s.devState := rfl
@[simp] theorem State.withReceiveSide_tickArmed (s : State) (buf : List Byte) (armed : Bool) (rem : Nat)
    (log : List LogEntry) : (s.withReceiveSide buf armed rem log).tickArmed = s.tickArmed := rfl

theorem tickRow_withReceiveSide (c : StateCode) (s : State) (buf : List Byte) (armed : Bool) (rem : Nat)
    (log : List LogEntry) :
    tickRow c (s.withReceiveSide buf armed rem log) = (tickRow c s).withReceiveSide buf armed rem log := by
  unfold tickRow
  split_ifs <;> rfl

/-- `TICK` neither reads nor writes the receive side. -/
theorem stateTick_withReceiveSide (s : State) (buf : List Byte) (armed : Bool) (rem : Nat) (log : List LogEntry) :
    stateTick (s.withReceiveSide buf armed rem log) = (stateTick s).withReceiveSide buf armed rem log := by
  unfold stateTick
  rw [State.withReceiveSide_tickArmed, State.withReceiveSide_devState, tickRow_withReceiveSide]
  split <;> rfl

/-- `s` with another record of timer calls (entry 10). -/
def State.withTimerCalls (s : State) (calls : List TimerCall) : State := { s with timerCalls := calls }

@[simp] theorem State.withTimerCalls_devState (s : State) (calls : List TimerCall) :
    (s.withTimerCalls calls).devState = s.devState := rfl
@[simp] theorem State.withTimerCalls_tickArmed (s : State) (calls : List TimerCall) :
    (s.withTimerCalls calls).tickArmed = s.tickArmed := rfl

theorem tickRow_withTimerCalls (c : StateCode) (s : State) (calls calls' : List TimerCall) :
    (tickRow c (s.withTimerCalls calls)).withTimerCalls calls' = (tickRow c s).withTimerCalls calls' := by
  unfold tickRow
  split_ifs <;> rfl

/-- `TICK` may append to the record of timer calls, and does not read it. -/
theorem stateTick_withTimerCalls (s : State) (calls calls' : List TimerCall) :
    (stateTick (s.withTimerCalls calls)).withTimerCalls calls' = (stateTick s).withTimerCalls calls' := by
  unfold stateTick
  rw [State.withTimerCalls_tickArmed, State.withTimerCalls_devState]
  split
  · exact tickRow_withTimerCalls s.devState s calls calls'
  · rfl

/-! ### The two timeouts (R137) -/

/-- An idle timeout writes the receive side only (R120). -/
theorem idleTimeout_eq_withReceiveSide {s : State} (h : s.idleArmed = true) :
    idleTimeout s = s.withReceiveSide [] false 0 s.log := idleTimeout_of_armed h

theorem idleTimeout_stateTick (s : State) : idleTimeout (stateTick s) = stateTick (idleTimeout s) := by
  cases h : s.idleArmed with
  | false => rw [idleTimeout_of_stopped h, idleTimeout_of_stopped ((stateTick_idleArmed s).trans h)]
  | true =>
    rw [idleTimeout_eq_withReceiveSide h, idleTimeout_eq_withReceiveSide ((stateTick_idleArmed s).trans h),
      stateTick_withReceiveSide, stateTick_log]

/-- Settles O45: the two timeouts write disjoint fields. -/
theorem timeoutsCommute : Obligations.TimeoutsCommute := fun s =>
  ⟨_, _, _, rfl, rfl, rfl, congrArg Host.Outcome.next (idleTimeout_stateTick s)⟩

/-! ### `RX` and `TICK` (R137, entry 21) -/

theorem dispatchAll_of_unrecognized {Ws : List Frame} (s : State) (h : ∀ W ∈ Ws, matchFrame W = .unrecognized) :
    dispatchAll Ws s = { s with log := s.log ++ Ws.map .unrecognized } := by
  induction Ws generalizing s with
  | nil => simp
  | cons W Ws ih =>
    obtain ⟨hW, hWs⟩ := List.forall_mem_cons.1 h
    have hdispatch : dispatch W s = s.trace (.unrecognized W) := by
      simp [dispatch, hW, unrecognizedWindow]
    rw [dispatchAll_cons, hdispatch, ih _ hWs]
    simp [State.trace]

/-- The idle-timer control up to its record: armed for the full duration where bytes are left (R87). -/
theorem State.idleControl_withTimerCalls (s : State) (calls : List TimerCall) :
    s.idleControl.withTimerCalls calls =
      { s with idleArmed := !s.buf.isEmpty, idleRem := if s.buf.isEmpty then 0 else s.params.idleMs,
               timerCalls := calls } := by
  rcases s.idleControl_cases with ⟨h, e⟩ | ⟨h, e⟩ <;> rw [e] <;>
    simp [h, State.withTimerCalls, State.timerStop, State.timerStart]

/-- What an `RX(chunk)` without a command leaves, its timer transaction left out: it writes the receive side only. -/
def State.afterStrayChunk (s : State) (chunk : List Byte) : State :=
  s.withReceiveSide (leftOver (alignedBytes s chunk)) (!(leftOver (alignedBytes s chunk)).isEmpty)
    (if (leftOver (alignedBytes s chunk)).isEmpty then 0 else s.params.idleMs)
    (garbageLog s.log (discardedBytes s chunk) ++ (dispatchedWindows s chunk).map .unrecognized)

theorem rx_withTimerCalls_of_unrecognized {chunk : List Byte} {s : State}
    (h : ∀ W ∈ dispatchedWindows s chunk, matchFrame W = .unrecognized) (calls : List TimerCall) :
    (rx chunk s).withTimerCalls calls = (s.afterStrayChunk chunk).withTimerCalls calls := by
  rw [rx_eq_rxClosed, rxClosed, dispatchAll_of_unrecognized _ h, State.idleControl_withTimerCalls]
  rfl

/-- The framing reads `BUF` alone, so it cuts the same windows after a tick. -/
theorem dispatchedWindows_stateTick (s : State) (chunk : List Byte) :
    dispatchedWindows (stateTick s) chunk = dispatchedWindows s chunk :=
  congrArg windowsOf (alignedBytes_congr (stateTick_buf s) chunk)

theorem stateTick_afterStrayChunk (s : State) (chunk : List Byte) :
    stateTick (s.afterStrayChunk chunk) = (stateTick s).afterStrayChunk chunk := by
  have haligned : alignedBytes (stateTick s) chunk = alignedBytes s chunk := alignedBytes_congr (stateTick_buf s) chunk
  have hdiscarded : discardedBytes (stateTick s) chunk = discardedBytes s chunk := by
    rw [discardedBytes, discardedBytes, stateTick_buf]
  rw [State.afterStrayChunk, State.afterStrayChunk, stateTick_withReceiveSide, haligned, hdiscarded,
    dispatchedWindows_stateTick, stateTick_params, stateTick_log]

/-- Both orders end alike but for the record of timer calls: the `RX` writes the receive side only. -/
theorem stateTick_rx_of_unrecognized {chunk : List Byte} {s : State}
    (h : ∀ W ∈ dispatchedWindows s chunk, matchFrame W = .unrecognized) (calls : List TimerCall) :
    (stateTick (rx chunk s)).withTimerCalls calls = (rx chunk (stateTick s)).withTimerCalls calls := by
  have hafter : ∀ W ∈ dispatchedWindows (stateTick s) chunk, matchFrame W = .unrecognized := by
    rwa [dispatchedWindows_stateTick]
  calc (stateTick (rx chunk s)).withTimerCalls calls
      = (stateTick ((rx chunk s).withTimerCalls [])).withTimerCalls calls := (stateTick_withTimerCalls _ _ _).symm
    _ = (stateTick ((s.afterStrayChunk chunk).withTimerCalls [])).withTimerCalls calls := by
        rw [rx_withTimerCalls_of_unrecognized h]
    _ = ((stateTick s).afterStrayChunk chunk).withTimerCalls calls := by
        rw [stateTick_withTimerCalls, stateTick_afterStrayChunk]
    _ = (rx chunk (stateTick s)).withTimerCalls calls := (rx_withTimerCalls_of_unrecognized hafter calls).symm

/-- Settles O47: the record of one order is put into the state of the other. -/
theorem rxAndTickCommuteWithoutCommands : Obligations.RxAndTickCommuteWithoutCommands := fun s chunk h =>
  ⟨rx chunk s, stateTick s, stateTick (rx chunk s), rx chunk (stateTick s), rfl, rfl, rfl, rfl,
    stateTick_rx_of_unrecognized h (rx chunk (stateTick s)).timerCalls⟩

/-- One tick before rest: Cooling2 with the state timer running. -/
def coolingDown : State := { State.reset with devState := 0x05#8, tickArmed := true, tickRem := 1000 }

/-- Refutes O46: in Cooling2 a power command and then a tick leave the state timer stopped (R116), a tick and then the
power command leave it armed (R103). -/
theorem not_rxAndTickCommuteWithoutQueries : ¬ Obligations.RxAndTickCommuteWithoutQueries := by
  intro h
  have hpower : ∀ W ∈ dispatchedWindows coolingDown (buildPowerCommand true).toList, matchFrame W ≠ .statusQuery := by
    decide
  have harch := h coolingDown _ _ _ _ (buildPowerCommand true).toList hpower rfl rfl rfl rfl
  have hstopped : (stateTick (rx (buildPowerCommand true).toList coolingDown)).tickArmed = false := by decide
  have harmed : (rx (buildPowerCommand true).toList (stateTick coolingDown)).tickArmed = true := by decide
  have hflags : (stateTick (rx (buildPowerCommand true).toList coolingDown)).tickArmed =
      (rx (buildPowerCommand true).toList (stateTick coolingDown)).tickArmed := congrArg Arch.tickArmed harch
  simp [hstopped, harmed] at hflags

/-! ### Timed runs are untimed runs (R149) -/

/-- The refinement restricts which events may come, and runs their handlers unchanged. -/
theorem timedStep_event_eq_some_iff {s t : State} {i : Input} :
    timedStep (.event i) s = some t ↔ timedAdmits s i = true ∧ exec i.toInstr s = .next t := by
  obtain ⟨u, hu, -⟩ := exists_exec_next i.toInstr s
  simp [timedStep, hu]

/-- Passing time changes only what no untimed rule reads. -/
theorem State.UntimedEq.elapse_left {s u : State} (h : s.UntimedEq u) (d : Nat) : (s.elapse d).UntimedEq u := by
  obtain ⟨p, a, b, c, rfl⟩ := h
  exact ⟨p, a, b, c, rfl⟩

/-- The simulation, by induction on the timed run: the untimed model follows each event and stands still while time
passes. -/
theorem exists_execAll_of_timedRun {es : List TimedEvent} {s t u : State} (h : s.UntimedEq u)
    (hparams : u.params = s.params) (hrun : timedRun es s = some t) :
    ∃ v, execAll ((untimedInputs es).map Input.toInstr) u = .next v ∧ t.UntimedEq v ∧ v.params = t.params := by
  induction es generalizing s u with
  | nil => exact ⟨u, rfl, Option.some.inj hrun ▸ ⟨h, hparams⟩⟩
  | cons e es ih =>
    obtain ⟨s', hstep, hrest⟩ := timedRun_cons_eq_some hrun
    cases e with
    | event i =>
      obtain ⟨-, hexec⟩ := timedStep_event_eq_some_iff.1 hstep
      obtain ⟨s'', u', hs'', hu', h'⟩ := exec_untimedNext i.toInstr h
      obtain rfl : s' = s'' := eq_of_next (hs''.symm.trans hexec)
      have hparams' : u'.params = s'.params := by
        rw [params_eq_of_exec hu', params_eq_of_exec hexec, hparams]
      obtain ⟨v, hv, hend⟩ := ih h' hparams' hrest
      exact ⟨v, (execAll_cons_of_exec _ hu').trans hv, hend⟩
    | elapse d =>
      obtain ⟨-, rfl⟩ := timedStep_elapse_eq_some_iff.1 hstep
      exact ih (h.elapse_left d) hparams hrest

/-- Settles O54: the simulation from one state on both sides. -/
theorem timedRunsAreUntimedRuns : Obligations.TimedRunsAreUntimedRuns := by
  intro es s t hrun
  have hself : s.UntimedEq s := ⟨s.params, s.idleRem, s.tickRem, s.now, rfl⟩
  obtain ⟨v, hv, ⟨p, a, b, c, rfl⟩, hparams⟩ := exists_execAll_of_timedRun hself rfl hrun
  exact ⟨_, hv, rfl, rfl, rfl, rfl, rfl, rfl, hparams⟩

/-! ### The idle duration (R147, R181) -/

/-- `t` still holds the left-over bytes `buf`, and its idle timer runs out when the clock shows `deadline`. -/
structure State.WaitsUntil (t : State) (buf : List Byte) (deadline : Nat) : Prop where
  buf_eq : t.buf = buf
  armed : t.idleArmed = true
  clock : t.now + t.idleRem = deadline

namespace State.WaitsUntil

variable {t u : State} {buf : List Byte} {deadline : Nat}

/-- An `RX` that leaves bytes starts the wait (R87). -/
theorem of_rx {chunk : List Byte} {s : State} (h : (rx chunk s).buf ≠ []) :
    (rx chunk s).WaitsUntil (rx chunk s).buf ((rx chunk s).now + s.params.idleMs) where
  buf_eq := rfl
  armed := by rw [rx_idleArmed]; simpa using h
  clock := by rw [rx_idleRem, if_neg (by simpa using h)]

theorem tick (h : t.WaitsUntil buf deadline) : (stateTick t).WaitsUntil buf deadline where
  buf_eq := (stateTick_buf t).trans h.buf_eq
  armed := (stateTick_idleArmed t).trans h.armed
  clock := by rw [stateTick_now, stateTick_idleRem, h.clock]

/-- Time never passes beyond the deadline. -/
theorem elapse {d : Nat} (h : t.WaitsUntil buf deadline) (hadmits : elapseAdmits t d = true) :
    (t.elapse d).WaitsUntil buf deadline where
  buf_eq := h.buf_eq
  armed := h.armed
  clock := by
    have hd : d ≤ t.idleRem := (elapseAdmits_iff.1 hadmits).1 h.armed
    have hclock := h.clock
    rw [State.elapse_now, State.elapse_idleRem, if_pos h.armed]
    omega

theorem timedStep {e : TimedEvent} (he : e = .event .tick ∨ ∃ d, e = .elapse d) (h : t.WaitsUntil buf deadline)
    (hstep : timedStep e t = some u) : u.WaitsUntil buf deadline := by
  rcases he with rfl | ⟨d, rfl⟩
  · obtain ⟨-, rfl⟩ := timedStep_tick_eq_some_iff.1 hstep
    exact h.tick
  · obtain ⟨hadmits, rfl⟩ := timedStep_elapse_eq_some_iff.1 hstep
    exact h.elapse hadmits

/-- The timeout is admitted at the deadline and at no other time. -/
theorem admits_idleTimeout_iff (h : t.WaitsUntil buf deadline) :
    timedAdmits t .idleTimeout = true ↔ t.now = deadline := by
  have hclock := h.clock
  simp only [timedAdmits, State.due, h.armed, Bool.true_and, beq_iff_eq]
  omega

end State.WaitsUntil

/-- Settles O56: the wait that the `RX` starts is kept by ticks and passing time. -/
theorem idleTimeoutNotBeforeItsDuration : Obligations.IdleTimeoutNotBeforeItsDuration := by
  intro chunk s u t es hrx hbytes hes hrun
  obtain rfl : u = rx chunk s := eq_of_next hrx
  have hwait : t.WaitsUntil (rx chunk s).buf ((rx chunk s).now + s.params.idleMs) :=
    timedRun_keeps (P := (State.WaitsUntil · _ _)) (fun e he _ _ hu hstep => hu.timedStep (hes e he) hstep)
      (.of_rx hbytes) hrun
  exact ⟨hwait.buf_eq, hwait.admits_idleTimeout_iff⟩

end Sys2Proof.Machine

/-!
Reset and hazards (`70_reset_and_hazards.md` R160 to R178): construction, and what stray bytes do to a later chunk. Left-over
bytes and late remainders without 0xA9 are passed over by the marker search, and a response is dispatched to no command.
-/

namespace Sys2Proof.Machine

/-! ### Construction (R160, R161) -/

/-- Settles O2: the row is `construct`, which writes the reset state but for the three fields that stay. -/
theorem resetIsConstructionAgain : Obligations.ResetIsConstructionAgain := fun _ => rfl

/-- Settles O1: the five values are those of `State.reset`, which `RESET` puts in place again. -/
theorem resetGivesTheResetValues : Obligations.ResetGivesTheResetValues :=
  ⟨fun s => ⟨_, resetIsConstructionAgain s, rfl, rfl, rfl, rfl, rfl⟩, rfl, rfl, rfl, rfl, rfl⟩

/-! ### Bytes without 0xA9, after the idle timeout and in `BUF` (R173, R177) -/

/-- With no 0xA9 in `BUF` or in the chunk, every byte is discarded and the idle timer stops (R83, R87). -/
theorem rx_ends_of_markerless {s : State} {chunk : List Byte} (h : Markerless (s.buf ++ chunk)) :
    (rx chunk s).ends = (⟨[], s.devState, false, s.tickArmed⟩, s.tx, 0, s.tickRem) := by
  have haligned : alignedBytes s chunk = [] := alignedBytes_eq_nil_iff.2 h
  have hwindows : dispatchedWindows s chunk = [] := congrArg windowsOf haligned
  simp [rx_ends, haligned, hwindows, leftOver]

/-- Settles O34: the timeout leaves an empty `BUF`, so the remainder comes with no 0xA9 before it. -/
theorem lateRemainderIsDropped : Obligations.LateRemainderIsDropped := by
  intro s chunk harmed hchunk
  have hgarbage : Markerless ((idleTimeout s).buf ++ chunk) := by
    rw [idleTimeout_buf_of_armed harmed]
    exact hchunk
  have hends := rx_ends_of_markerless hgarbage
  simp only [State.ends, Prod.mk.injEq, idleTimeout_devState, idleTimeout_tickArmed, idleTimeout_tx] at hends
  obtain ⟨harch, htx, -, -⟩ := hends
  exact ⟨idleTimeout s, rx chunk (idleTimeout s), rfl, rfl, harch, htx⟩

/-- Left-over bytes with no 0xA9 do not change which bytes of a chunk are aligned (R82). -/
theorem alignedBytes_of_markerless_buf {s : State} (h : Markerless s.buf) (chunk : List Byte) :
    alignedBytes s chunk = alignedBytes { s with buf := [] } chunk := by
  rw [alignedBytes_eq_fromMarker, alignedBytes_eq_fromMarker, fromMarker_append_of_markerless h, List.nil_append]

/-- The items, the output and the counters depend on `BUF` through the aligned bytes alone (R89). -/
theorem rx_ends_of_markerless_buf {s : State} (h : Markerless s.buf) (chunk : List Byte) :
    (rx chunk s).ends = (rx chunk { s with buf := [] }).ends := by
  rw [rx_ends, rx_ends, dispatchedWindows, dispatchedWindows, alignedBytes_of_markerless_buf h]

/-- Settles O35: the aligned bytes are those of the chunk alone. -/
theorem leftOverWithoutMarkerIsHarmless : Obligations.LeftOverWithoutMarkerIsHarmless := by
  intro s chunk h
  have hends := rx_ends_of_markerless_buf h chunk
  simp only [State.ends, Prod.mk.injEq] at hends
  obtain ⟨harch, htx, hidle, htick⟩ := hends
  exact ⟨rx chunk s, rx chunk { s with buf := [] }, rfl, rfl, harch, htx, htick, hidle⟩

/-! ### A response fed back (R178) -/

/-- One window that begins with 0xA9, on an empty `BUF`, is cut as it stands, dispatched, and the idle timer stops
(R85 to R87). -/
theorem rx_toList {s : State} {W : Frame} (hbuf : s.buf = []) (hW : W.b0 = sofByte) :
    dispatchedWindows s W.toList = [W] ∧ rx W.toList s = (dispatch W s).timerStop .idle := by
  have hhead : W.toList.head? = some sofByte := congrArg some hW
  obtain ⟨haligned, -⟩ := framing_of_marker_head hbuf hhead
  exact ⟨congrArg windowsOf haligned, rx_flatMap_toList (Ws := [W]) hbuf hhead⟩

/-- A window equal to no template leaves a log point only (R105). -/
theorem dispatch_of_unrecognized {W : Frame} (h : matchFrame W = .unrecognized) (s : State) :
    dispatch W s = s.trace (.unrecognized W) := by
  simpa [h] using dispatch_cases W s

/-- Settles O36: the response is one aligned window and equal to no template, so its dispatch is a log point. -/
theorem noEchoLoop : Obligations.NoEchoLoop := by
  intro s c hbuf
  have hverdict : matchFrame (buildStatusResponse c) = .unrecognized := matchFrame_buildStatusResponse c
  obtain ⟨hwindows, hrx⟩ := rx_toList (W := buildStatusResponse c) hbuf rfl
  rw [dispatch_of_unrecognized hverdict] at hrx
  refine ⟨_, congrArg Host.Outcome.next hrx, hwindows, hverdict, rfl, ?_⟩
  simp [State.arch, hbuf]

end Sys2Proof.Machine
